-- ==== Sys2Proof/Word.lean ====
section
/-! DEFINITION. The words the spec numbers bit by bit (spec/00_scope.md R11). All are unsigned. -/

namespace Sys2Proof

/-- A command word, 16 bits (R80). -/
abbrev CommandWord := BitVec 16

/-- A point reference `{sch[1:0], idx[5:0]}` (R59). -/
abbrev PointRef := BitVec 8

/-- The content of one slot of a frame, `{occ, sch[1:0], idx[5:0]}` (R57). -/
abbrev SlotWord := BitVec 9

/-- The content of register CFG_STR, eight ASCII bytes, the first character in bits 7:0 (R22, R64). -/
abbrev ConfigWord := BitVec 64

/-- A bit sequence, first bit first (R12). -/
abbrev Bits := List Bool

end Sys2Proof
end

