-- ==== Sys2Proof/Syntax.lean ====
section
/-! DEFINITION. The command set of OFDM-MAP (spec/30_encoding.md), one constructor per row of spec/opcode_table.json. -/

namespace Sys2Proof

/-- The closed set of modulation schemes (R84): "a closed variant {BPSK, QPSK, QAM16, QAM64}". -/
inductive Scheme where
  | bpsk
  | qpsk
  | qam16
  | qam64
deriving DecidableEq, Repr, Inhabited

/-- A command (R86). The operand of a MAP command is the assembled bit group `g{0} .. g{len-1}` (R83, R89); its
scheme is the constructor. -/
inductive Instr where
  /-- INIT (R161); its operand is register CFG_STR. -/
  | init
  /-- MOD (R166); its operands are BITMEM, BITLEN and SCHEME. -/
  | mod
  /-- MAP.BPSK (R102). -/
  | mapBpsk (g : Bits)
  /-- MAP.QPSK (R103). -/
  | mapQpsk (g : Bits)
  /-- MAP.QAM16 (R104). -/
  | mapQam16 (g : Bits)
  /-- MAP.QAM64 (R105). -/
  | mapQam64 (g : Bits)
  /-- XLT (R122), the position being an unsigned number 0..63 (R85). -/
  | xlt (pos : BitVec 6)
deriving DecidableEq, Repr

/-- Why a word is undecodable: the six cases (a) to (f) of R88. All six are executed alike (E_REFUSED). -/
inductive Undecodable where
  /-- (a) `op = 0x0` or `op` in `0x5 .. 0xF`. -/
  | reservedOpcode
  /-- (b) INIT or MOD with `cw[11:0] != 0`. -/
  | zFieldNotZero
  /-- (c) MAP with `cw[11] = 1`. -/
  | mapBit11Set
  /-- (d) MAP with `len = 7`. -/
  | mapLengthSeven
  /-- (e) MAP with a bit of `grp[5:len]` set. -/
  | mapBitsAboveGroup
  /-- (f) XLT with `cw[11:6] != 0`. -/
  | xltFieldNotZero
deriving DecidableEq, Repr

/-- What the decoder answers: the instruction, or the name of the reason why there is none (R87). -/
inductive Decoded where
  | instr (i : Instr)
  | undecodable (why : Undecodable)
deriving DecidableEq, Repr

/-- A row of the opcode map: a word `cw` selects it when `cw & mask = match` (R86). -/
structure OpcodeRow where
  pattern : CommandWord
  mask : CommandWord
deriving DecidableEq, Repr

end Sys2Proof
end

