-- ==== Sys2Proof/WellFormed.lean ====
section
/-! DEFINITION. Which terms of Instr stand for a command word: the group of a MAP has at most six bits (R83). -/

namespace Sys2Proof

/-- "`len` (3 bits): the number of bits in the bit group, 0..6; the value 7 is reserved" (R83). -/
def maxGroupBits : Nat := 6

/-- A term is well-formed when its operands fit their fields (R83, R85). -/
def Instr.wellFormed : Instr → Bool
  | .init => true
  | .mod => true
  | .mapBpsk g => decide (g.length ≤ maxGroupBits)
  | .mapQpsk g => decide (g.length ≤ maxGroupBits)
  | .mapQam16 g => decide (g.length ≤ maxGroupBits)
  | .mapQam64 g => decide (g.length ≤ maxGroupBits)
  | .xlt _ => true

/-- The same as a proposition that `decide` runs on. -/
abbrev Instr.WellFormed (i : Instr) : Prop := i.wellFormed = true

end Sys2Proof
end

