-- ==== Sys2Proof/Decode.lean ====
section
/-! DEFINITION. Command words to commands and back (spec/30_encoding.md R80 to R89). -/

namespace Sys2Proof

/-- The scheme code (R84). -/
def Scheme.code : Scheme → BitVec 2
  | .bpsk => 0b00#2
  | .qpsk => 0b01#2
  | .qam16 => 0b10#2
  | .qam64 => 0b11#2

/-- The scheme a code names; no code is illegal (R84). -/
def Scheme.ofCode (c : BitVec 2) : Scheme :=
  match c with
  | 0b00#2 => .bpsk
  | 0b01#2 => .qpsk
  | 0b10#2 => .qam16
  | 0b11#2 => .qam64

/-- The index of a bit group, its first bit being the most significant: `sum over j of g{j} * 2^(n-1-j)` (R63). -/
def groupIndex : Bits → Nat
  | [] => 0
  | b :: g => b.toNat * 2 ^ g.length + groupIndex g

/-- The group of `len` bits held right-justified in a field: `g{j} = grp[len-1-j]` (R83, R89). -/
def groupOf (len : Nat) (grp : BitVec 6) : Bits :=
  (List.range len).map fun j => grp.getLsbD (len - 1 - j)

/-- The MAP command of a scheme: the four rows of opcode 0x3 (R86). -/
def Instr.mapOf (s : Scheme) (g : Bits) : Instr :=
  match s with
  | .bpsk => .mapBpsk g
  | .qpsk => .mapQpsk g
  | .qam16 => .mapQam16 g
  | .qam64 => .mapQam64 g

/-- Format M below the opcode (R81, R87, R88 (c) to (e)). -/
def decodeMap (w : CommandWord) : Decoded :=
  let sch := w.extractLsb' 9 2
  let len := (w.extractLsb' 6 3).toNat
  let grp := w.extractLsb' 0 6
  if w.getLsbD 11 then .undecodable .mapBit11Set
  else if len = 7 then .undecodable .mapLengthSeven
  else if grp >>> len ≠ 0#6 then .undecodable .mapBitsAboveGroup
  else .instr (.mapOf (.ofCode sch) (groupOf len grp))

/-- The decoder, total on all 65536 words (R87). -/
def decode (w : CommandWord) : Decoded :=
  let op := (w.extractLsb' 12 4).toNat
  if op = 1 then
    if w.extractLsb' 0 12 = 0#12 then .instr .init else .undecodable .zFieldNotZero
  else if op = 2 then
    if w.extractLsb' 0 12 = 0#12 then .instr .mod else .undecodable .zFieldNotZero
  else if op = 3 then decodeMap w
  else if op = 4 then
    if w.extractLsb' 6 6 = 0#6 then .instr (.xlt (w.extractLsb' 0 6)) else .undecodable .xltFieldNotZero
  else .undecodable .reservedOpcode

/-- Format M (R81): `op`, a zero bit, `sch`, `len`, `grp`. -/
def encodeMap (s : Scheme) (g : Bits) : CommandWord :=
  0x3#4 ++ 0#1 ++ s.code ++ BitVec.ofNat 3 g.length ++ BitVec.ofNat 6 (groupIndex g)

/-- The word of a well-formed instruction (R81, R83, R85, R86). -/
def encode : Instr → CommandWord
  | .init => 0x1#4 ++ 0#12
  | .mod => 0x2#4 ++ 0#12
  | .mapBpsk g => encodeMap .bpsk g
  | .mapQpsk g => encodeMap .qpsk g
  | .mapQam16 g => encodeMap .qam16 g
  | .mapQam64 g => encodeMap .qam64 g
  | .xlt pos => 0x4#4 ++ 0#6 ++ pos

/-- Whether a word selects a row (R86). -/
def OpcodeRow.selectedBy (r : OpcodeRow) (w : CommandWord) : Bool := w &&& r.mask == r.pattern

/-- The row of each instruction (R86). -/
def Instr.row : Instr → OpcodeRow
  | .init => ⟨0x1000, 0xFFFF⟩
  | .mod => ⟨0x2000, 0xFFFF⟩
  | .mapBpsk _ => ⟨0x3000, 0xFE00⟩
  | .mapQpsk _ => ⟨0x3200, 0xFE00⟩
  | .mapQam16 _ => ⟨0x3400, 0xFE00⟩
  | .mapQam64 _ => ⟨0x3600, 0xFE00⟩
  | .xlt _ => ⟨0x4000, 0xFFC0⟩

/-- The seven rows of the map (R86). -/
def opcodeRows : List OpcodeRow :=
  [⟨0x1000, 0xFFFF⟩, ⟨0x2000, 0xFFFF⟩, ⟨0x3000, 0xFE00⟩, ⟨0x3200, 0xFE00⟩, ⟨0x3400, 0xFE00⟩, ⟨0x3600, 0xFE00⟩,
    ⟨0x4000, 0xFFC0⟩]

/-- The host's view of the decoder: a command is one word of 16 bits (R80), so a number that needs more bits is none. -/
def decodeTableWord (nbits w : Nat) : Option Instr :=
  if nbits ≤ 16 ∧ w < 2 ^ nbits then
    match decode (BitVec.ofNat 16 w) with
    | .instr i => some i
    | .undecodable _ => none
  else none

end Sys2Proof
end

