-- ==== Sys2Proof/Config.lean ====
section
/-! DEFINITION. What an implementation fixes (spec/00_scope.md R9) and the free values (spec/93_implementation_defined.md).
A constant declared `opaque` has no value that any proof could use. -/

namespace Sys2Proof

/-- The parameters of one instance (R9). `maxBits` is MAXBITS, the number of cells of BITMEM; `none` is the unbounded
memory that R9 and D21 allow a model to take (log 3). TAIL_POLICY has the single value DROP and is no field; REGMAP is
not part of the model (U18). -/
structure Params where
  maxBits : Option Nat
deriving DecidableEq, Repr

/-- One entry of the constellation ROM: the bit patterns, in the implementation's own unstated number format, of the
in-phase and quadrature components (R60, R108; log 10). -/
structure IQ where
  i : Nat
  q : Nat
deriving DecidableEq, Repr, Inhabited

/-- CROM (R60 to R62, U1): one constant for every instance and all time, no value of it given. -/
opaque Config.crom : Scheme → Nat → IQ

/-- What cell `a` of BITMEM holds after power-up, before the host writes it (U14, log 8). -/
opaque Config.powerUpBit : Nat → Bool

/-- The `d`-th free value of a register SCHEME or TAG whose content is unspecified (U4, U5; log 6, log 7). -/
opaque Config.freeScheme : Nat → Scheme

/-- A second such family, so that TAG and SCHEME are free of each other after one reset (U4, U5). -/
opaque Config.freeTag : Nat → Scheme

/-- The `d`-th free value of register NFRAMES while its content is unspecified (U4). -/
opaque Config.freeNframes : Nat → Nat

/-- The `d`-th free value of a slot of FRAMEMEM whose content is unspecified (U3, U4). -/
opaque Config.freeSlot : Nat → SlotWord

end Sys2Proof
end

