-- ==== Sys2Proof/Machine/State.lean ====
section
/-! DEFINITION. The state of the machine as plain data (spec/10_state.md, spec/20_memory.md), the host's moves
(spec/70_reset_and_hazards.md R214), what the block delivers, and the reasons a step can stop. -/

namespace Sys2Proof.Machine

/-- CFG_STATE (R24); the code 0b11 is unreachable and has no constructor (U9). -/
inductive CfgState where
  | unconfigured
  | ready
  | configError
deriving DecidableEq, Repr

/-- The five fault causes of a command (R180). -/
inductive Cause where
  /-- E_CONFIG (R181). -/
  | config
  /-- E_GROUPLEN (R182). -/
  | groupLen
  /-- E_DOMAIN (R183). -/
  | domain
  /-- E_SHORT (R184). -/
  | short
  /-- E_REFUSED (R185). -/
  | refused
deriving DecidableEq, Repr

/-- How a command ends: one of six status values (R180, U10). -/
inductive Status where
  | ok
  | fault (c : Cause)
deriving DecidableEq, Repr

/-- The eight registers by name, in the order of their numbers 0 to 7 (R30). -/
inductive RegName where
  | cfgStr
  | bitlen
  | cfgState
  | scheme
  | fault
  | outValid
  | nframes
  | tag
deriving DecidableEq, Repr

/-- What the host may do between commands, complete (R214). -/
inductive HostMove where
  /-- Present one command word (R80). -/
  | command (w : CommandWord)
  /-- Write a register; only CFG_STR and BITLEN take the value (R30). -/
  | writeRegister (r : RegName) (v : Nat)
  /-- Write one cell of BITMEM (R50). -/
  | writeBit (a : Nat) (b : Bool)
  /-- Read a register. -/
  | readRegister (r : RegName)
  /-- Read slot `k` of frame `f` of FRAMEMEM. -/
  | readSlot (f k : Nat)
  /-- Read entry `x` of the table of scheme `s` in CROM. -/
  | readCrom (s : Scheme) (x : Nat)
  /-- Assert reset (R200). -/
  | reset
deriving DecidableEq, Repr

/-- What the block hands to the host. -/
inductive Output where
  /-- The response `(st, d)` of a command (R90). -/
  | response (st : Status) (d : BitVec 8)
  /-- The value of a register read by the host, as an unsigned number. -/
  | register (r : RegName) (v : Nat)
  /-- The slot word read by the host at `(f, k)`. -/
  | slot (f k : Nat) (w : SlotWord)
  /-- The entry of CROM read by the host at `(s, x)`. -/
  | point (s : Scheme) (x : Nat) (v : IQ)
deriving DecidableEq, Repr

/-- A memory: the cells that have a content, by rising address (see `Memory.wf`). An address that is not listed has no
content (log 8, log 9). -/
abbrev Memory (α : Type) := List (Nat × α)

/-- Why the machine stops. None of these is raised by a command; all are safe (the machine stops where the spec says
that an address does not exist; log 11). -/
inductive Fault where
  /-- Raised by the host's `writeBit` at an address that is not below MAXBITS (R50). Safe. -/
  | bitmemAddress
  /-- Raised by the host's `readSlot` at a frame not below MAXFRAMES or a slot above 52 (R54). Safe. -/
  | framememAddress
  /-- Raised by the host's `readCrom` at an index not below `2^n` (R60). Safe. -/
  | cromAddress
deriving DecidableEq, Repr

/-- Why a step has no meaning in the model. -/
inductive Refusal where
  /-- Raised by `exec`'s arm of an instruction that has no meaning yet. Safe. -/
  | notModelled (mnemonic : String)
  /-- Raised by MOD when BITLEN holds a number above MAXBITS (U8, R165: "refuses such a MOD"). Safe. -/
  | bitlenAboveMaxbits
  /-- Raised by the host's `writeRegister` with a value that the register is too narrow to hold: it "cannot be
  written" (R30; log 4). Safe. -/
  | valueWiderThanRegister
deriving DecidableEq, Repr

/-- The state (R20), with the instance's parameters (R9) and the model's own host port and counter (log 1, 3, 13). -/
structure State where
  /-- The parameters of the instance; nothing writes them. -/
  params : Params
  /-- Register 0 (R22). -/
  cfgStr : ConfigWord
  /-- Register 1 (R23). -/
  bitlen : Nat
  /-- Register 2 (R24). -/
  cfgState : CfgState
  /-- Register 3 (R25). -/
  scheme : Scheme
  /-- Register 4 (R26). -/
  fault : BitVec 5
  /-- Register 5 (R27). -/
  outValid : Bool
  /-- Register 6 (R28). -/
  nframes : Nat
  /-- Register 7 (R29). -/
  tag : Scheme
  /-- The input bit memory, by bit address (R50). -/
  bitmem : Memory Bool
  /-- The output buffer, slot `k` of frame `f` at `53 * f + k` (R54; log 9). -/
  framemem : Memory SlotWord
  /-- The host's moves that are still to come, the next one first (the model's own). -/
  inbox : List HostMove
  /-- What has been delivered to the host, oldest first (the model's own). -/
  outbox : List Output
  /-- How many free values have been drawn (the model's own). -/
  draws : Nat
deriving DecidableEq, Repr

/-- The machine after power-up and reset (R35): UNCONFIGURED, no fault bit, no valid output. CFG_STR, BITLEN, SCHEME,
NFRAMES and TAG have no value in the spec and are 0 here (DESIGN CHOICE, log 5); both memories list nothing. -/
def State.reset : State where
  params := ⟨none⟩
  cfgStr := 0
  bitlen := 0
  cfgState := .unconfigured
  scheme := .bpsk
  fault := 0
  outValid := false
  nframes := 0
  tag := .bpsk
  bitmem := []
  framemem := []
  inbox := []
  outbox := []
  draws := 0

end Sys2Proof.Machine
end

