-- ==== Sys2Proof/Machine/Flags.lean ====
section
/-! DEFINITION. Status codes and the sticky bits of register FAULT (spec/10_state.md R26, spec/60_exceptions.md R180). -/

namespace Sys2Proof.Machine

/-- The status code of a fault, 1 to 5 (R180). -/
def Cause.code : Cause → Nat
  | .config => 1
  | .groupLen => 2
  | .domain => 3
  | .short => 4
  | .refused => 5

/-- The 3-bit status code of a response (R180). -/
def Status.code : Status → BitVec 3
  | .ok => 0
  | .fault c => BitVec.ofNat 3 c.code

/-- The bit of FAULT that a fault sets: bit `c-1` for status code `c` (R26). -/
def Cause.faultBit (c : Cause) : Nat := c.code - 1

/-- FAULT with the bit of `c` set and the others as they were: every bit is sticky (R26, R186 (2)). -/
def setFault (c : Cause) (f : BitVec 5) : BitVec 5 := f ||| (1#5 <<< c.faultBit)

end Sys2Proof.Machine
end

