-- ==== Sys2Proof/Machine/Ops.lean ====
section
/-! DEFINITION. The named operations over memories and registers, the response, and taking a fault. -/

namespace Sys2Proof.Machine

/-! ## Memories -/

/-- The canonical form: addresses strictly rising. -/
abbrev Memory.wf {α : Type} (m : Memory α) : Prop := m.Pairwise fun c d => c.1 < d.1

/-- The content of an address, if it has any. -/
def Memory.read {α : Type} : Memory α → Nat → Option α
  | [], _ => none
  | (k, v) :: m, a => if k = a then some v else Memory.read m a

/-- One cell written. -/
def Memory.write {α : Type} : Memory α → Nat → α → Memory α
  | [], a, v => [(a, v)]
  | (k, w) :: m, a, v =>
    if a < k then (a, v) :: (k, w) :: m
    else if a = k then (a, v) :: m
    else (k, w) :: Memory.write m a v

/-- The cells of a run of values, the first at address `a`. -/
def Memory.run {α : Type} : Nat → List α → Memory α
  | _, [] => []
  | a, v :: vs => (a, v) :: Memory.run (a + 1) vs

/-- Consecutive cells written, the first at `a`: the cells below, the run, the cells above (the same as writing them one
by one: `Memory.writeRun_cons`, in Laws). -/
def Memory.writeRun {α : Type} (m : Memory α) (a : Nat) (vs : List α) : Memory α :=
  m.filter (fun c => c.1 < a) ++ Memory.run a vs ++ m.filter (fun c => a + vs.length ≤ c.1)

/-! ## Parameters (R9) -/

/-- The largest number a register just wide enough for `m` can hold, plus one: "the least number of bits that holds"
it (R23, R28). -/
def registerSpan (m : Nat) : Nat := 2 ^ (m.log2 + 1)

/-- `MAXFRAMES = 1 + floor((MAXBITS - 48) / 48)` (R28). -/
def maxFrames (p : Params) : Option Nat := p.maxBits.map fun m => 1 + (m - 48) / 48

/-- Whether a number is below an open bound; without a bound every number is. -/
def below (bound : Option Nat) (n : Nat) : Bool :=
  match bound with
  | none => true
  | some m => decide (n < m)

/-- Whether BITMEM has a cell at `a` (R50). -/
def bitExists (p : Params) (a : Nat) : Bool := below p.maxBits a

/-- Whether FRAMEMEM has a frame `f` (R54). -/
def frameExists (p : Params) (f : Nat) : Bool := below (maxFrames p) f

/-- Whether BITLEN can hold `v` at all (R30). -/
def bitlenHolds (p : Params) (v : Nat) : Bool := below (p.maxBits.map registerSpan) v

/-- Whether a sequence of `v` bits is a legal input, `v <= MAXBITS` (R213 (d)). -/
def bitlenLegal (p : Params) (v : Nat) : Bool := below (p.maxBits.map (· + 1)) v

/-! ## The input bit memory BITMEM -/

/-- Bit `a` of BITMEM; a cell the host has not written since power-up holds an unspecified bit (R35, U14). -/
def State.bit (s : State) (a : Nat) : Bool := (s.bitmem.read a).getD (Config.powerUpBit a)

/-- `MemRead(a, m)`: the `m` bits at `a`, first bit first (R51). Used within `a + m <= BITLEN` only (log 16). -/
def State.memRead (s : State) (a m : Nat) : Bits := (List.range m).map fun j => s.bit (a + j)

/-! ## The output buffer FRAMEMEM -/

/-- The number of slots of a frame (R8, R55). -/
def frameSlots : Nat := 53

/-- The address of slot `k` of frame `f` (R54; log 9). -/
def slotAddr (f k : Nat) : Nat := frameSlots * f + k

/-- The stored content of slot `(f, k)`, if it has any. -/
def State.slot (s : State) (f k : Nat) : Option SlotWord := s.framemem.read (slotAddr f k)

/-- Frames written one after the other, from frame `f` on, each slot by `MemWrite((f, k), 9, v)` (R56, R166). -/
def writeFrames : Memory SlotWord → Nat → List (List SlotWord) → Memory SlotWord
  | m, _, [] => m
  | m, f, F :: Fs => writeFrames (m.writeRun (slotAddr f 0) F) (f + 1) Fs

/-! ## Delivery, response, fault entry -/

/-- Something is handed to the host, after all that was handed to it before. -/
def deliver (o : Output) (s : State) : State := { s with outbox := s.outbox ++ [o] }

/-- `respond(st, d)`: the response is delivered and the command has ended (R90, R92). -/
def respond (st : Status) (d : BitVec 8) (s : State) : State := deliver (.response st d) s

/-- Taking a fault (R186, R92): `FAULT[c-1] <- 1`, then the response `(c, 0x00)`; nothing is saved, and control goes
nowhere. There is no return from a fault (R190): the next move of the host finds the block as it is here. -/
def takeFault (c : Cause) (s : State) : State :=
  respond (.fault c) 0 { s with fault := setFault c s.fault }

/-- `raise E` as the end of a command. -/
def raise (c : Cause) (s : State) : Host.Outcome State Fault Refusal := .next (takeFault c s)

/-- A command that runs only outside CONFIG_ERROR: there it ends with E_CONFIG (R191). -/
def unlessConfigError (s : State) (run : Host.Outcome State Fault Refusal) : Host.Outcome State Fault Refusal :=
  if s.cfgState = .configError then raise .config s else run

/-! ## Reset (R35, R201) -/

/-- A value that register NFRAMES can hold, otherwise free (U4): the register is just wide enough for MAXFRAMES (R28). -/
def freeNframes (p : Params) (d : Nat) : Nat :=
  match maxFrames p with
  | none => Config.freeNframes d
  | some m => Config.freeNframes d % registerSpan m

/-- The reset event: UNCONFIGURED, no fault bit, no valid output; SCHEME, NFRAMES, TAG and FRAMEMEM unspecified;
everything of the host's as it was (R35; log 6). -/
def resetBlock (s : State) : State :=
  { s with
    cfgState := .unconfigured
    fault := 0
    outValid := false
    scheme := Config.freeScheme s.draws
    nframes := freeNframes s.params s.draws
    tag := Config.freeTag s.draws
    framemem := []
    draws := s.draws + 1 }

end Sys2Proof.Machine
end

