-- ==== Sys2Proof/Machine/Operands.lean ====
section
/-! DEFINITION. The operand forms: schemes and their code word lengths, sequences, slot words, the configuration
string, and the two leaf functions `map` and `translate` (spec/40_mapper.md R100, spec/41_translator.md R121). -/

namespace Sys2Proof.Machine

/-! ## Sequences (R12) -/

/-- `sub(s, a, m)`: the `m` elements from `s{a}` on (R12). -/
def sub {α : Type} (l : List α) (a m : Nat) : List α := (l.drop a).take m

/-- The complete, consecutive, non-overlapping groups of `n` elements: `floor(len / n)` of them, group `q` being
`sub(l, q*n, n)`; what is left over is in no group (R144 to R146). -/
def groups {α : Type} (n : Nat) (l : List α) : List (List α) :=
  (List.range (l.length / n)).map fun q => sub l (q * n) n

/-! ## Schemes and the mapper -/

/-- The code word length `n` (R7, R84). -/
def codeWordLength : Scheme → Nat
  | .bpsk => 1
  | .qpsk => 2
  | .qam16 => 4
  | .qam64 => 6

/-- `map(s, g)`, the point reference `{s, index(g)}`; it is asked only for groups of length `n(s)` (R100; log 17). -/
def mapPoint (s : Scheme) (g : Bits) : PointRef := s.code ++ BitVec.ofNat 6 (groupIndex g)

/-! ## Slot words (R57) -/

/-- The empty slot word. -/
def emptySlot : SlotWord := 0

/-- The slot word of an occupied slot: `0x100 + {sch, idx}`. -/
def occupiedSlot (r : PointRef) : SlotWord := 1#1 ++ r

/-- Bit 8 of a slot word. -/
def slotOcc (w : SlotWord) : Bool := w.getLsbD 8

/-- Bits 7:6 of a slot word. -/
def slotSch (w : SlotWord) : Scheme := .ofCode (w.extractLsb' 6 2)

/-- Bits 5:0 of a slot word. -/
def slotIdx (w : SlotWord) : Nat := (w.extractLsb' 0 6).toNat

/-! ## The translator -/

/-- `translate(p)`, the six ranges of D0's table; not defined outside 0..47 (R120, R121). -/
def translatePos (p : Nat) : Option Nat :=
  if p ≤ 4 then some (p + 0)
  else if p ≤ 17 then some (p + 1)
  else if p ≤ 23 then some (p + 2)
  else if p ≤ 29 then some (p + 3)
  else if p ≤ 42 then some (p + 4)
  else if p ≤ 47 then some (p + 5)
  else none

/-- `signed(k) = k - 26` (R11, R125). The block itself never forms it. -/
def signedIndex (k : Nat) : Int := (k : Int) - 26

/-- The number of points of a frame, and of bits of the header (R7). -/
def dataSlots : Nat := 48

/-- The position that the translator sends to slot `k`, if there is one (R127 gives it in closed form). -/
def positionOf (k : Nat) : Option Nat := (List.range dataSlots).find? fun p => translatePos p == some k

/-! ## The configuration string (R22, R162) -/

/-- The scheme whose configuration string CFG_STR holds, all 64 bits being compared (R161, R162). -/
def recognise (w : ConfigWord) : Option Scheme :=
  if w = 0x000000004B535042#64 then some .bpsk
  else if w = 0x000000004B535051#64 then some .qpsk
  else if w = 0x000036312D4D4151#64 then some .qam16
  else if w = 0x000034362D4D4151#64 then some .qam64
  else none

/-- How a string is laid out in CFG_STR: character `j` in bits `8j+7:8j`, zero bytes after the last one, and only the
first eight characters of a longer string (R22, R64). What a host writes; the block never calls it. -/
def configWord (chars : List (BitVec 8)) : ConfigWord :=
  (chars.take 8).foldr (fun c w => w <<< 8 ||| c.setWidth 64) 0

end Sys2Proof.Machine
end

