-- ==== Sys2Proof/Machine/Mapper.lean ====
section
/-! DEFINITION. The four MAP commands (spec/40_mapper.md). -/

namespace Sys2Proof.Machine

/-- The pseudocode common to the four MAP commands (R106). -/
def mapCommand (sch : Scheme) (g : Bits) (s : State) : Host.Outcome State Fault Refusal :=
  unlessConfigError s <|
    if g.length = codeWordLength sch then .next (respond .ok (mapPoint sch g) s) else raise .groupLen s

/-- MAP.BPSK (R102). -/
def execMapBpsk (g : Bits) (s : State) : Host.Outcome State Fault Refusal := mapCommand .bpsk g s

/-- MAP.QPSK (R103). -/
def execMapQpsk (g : Bits) (s : State) : Host.Outcome State Fault Refusal := mapCommand .qpsk g s

/-- MAP.QAM16 (R104). -/
def execMapQam16 (g : Bits) (s : State) : Host.Outcome State Fault Refusal := mapCommand .qam16 g s

/-- MAP.QAM64 (R105). -/
def execMapQam64 (g : Bits) (s : State) : Host.Outcome State Fault Refusal := mapCommand .qam64 g s

end Sys2Proof.Machine
end

