-- ==== Sys2Proof/Machine/Assembler.lean ====
section
/-! DEFINITION. The frame assembler: field split, header framing, payload framing (spec/42_assembler.md), and the
result of one modulate call (spec/43_orchestrator.md R166). -/

namespace Sys2Proof.Machine

/-- The content of slot `k` of the frame of a point sequence: the point whose position the translator sends there, or
the empty word (R141). -/
def frameSlot (pts : List PointRef) (k : Nat) : SlotWord :=
  match (positionOf k).bind (pts[·]?) with
  | some r => occupiedSlot r
  | none => emptySlot

/-- `mkframe(pts)`: the 53 slots, in order of slot index; asked only for 48 points (R141; log 17). -/
def mkframe (pts : List PointRef) : List SlotWord := (List.range frameSlots).map (frameSlot pts)

/-- `headerFrame(h)`: every header bit is a group of its own, mapped with BPSK (R142). -/
def headerFrame (h : Bits) : List SlotWord := mkframe (h.map fun b => mapPoint .bpsk [b])

/-- `points(s, pl)`: the complete groups of `n(s)` bits, each mapped (R144). -/
def points (s : Scheme) (pl : Bits) : List PointRef := (groups (codeWordLength s) pl).map (mapPoint s)

/-- `payloadFrames(s, pl)`: the complete groups of 48 points, each a frame (R145). -/
def payloadFrames (s : Scheme) (pl : Bits) : List (List SlotWord) := (groups dataSlots (points s pl)).map mkframe

/-- `K = floor((BITLEN - 48) / (48 * n))`, the number of payload frames (R147, R166). -/
def payloadFrameCount (s : Scheme) (bitlen : Nat) : Nat := (bitlen - 48) / (48 * codeWordLength s)

/-- The frames of the output model, the header frame first (R149, R152): `header = sub(bits, 0, 48)`,
`payload = sub(bits, 48, N - 48)`. -/
def outputFrames (s : Scheme) (bits : Bits) : List (List SlotWord) :=
  headerFrame (sub bits 0 48) :: payloadFrames s (sub bits 48 (bits.length - 48))

/-- The writes of a successful MOD (R166): the frames, NFRAMES, TAG, OUT_VALID. -/
def modulate (s : State) : State :=
  { s with
    framemem := writeFrames s.framemem 0 (outputFrames s.scheme (s.memRead 0 s.bitlen))
    nframes := 1 + payloadFrameCount s.scheme s.bitlen
    tag := s.scheme
    outValid := true }

end Sys2Proof.Machine
end

