-- ==== Sys2Proof/Machine/Orchestrator.lean ====
section
/-! DEFINITION. The commands INIT and MOD (spec/43_orchestrator.md). -/

namespace Sys2Proof.Machine

/-- INIT (R161 to R163). -/
def execInit (s : State) : Host.Outcome State Fault Refusal :=
  match s.cfgState with
  | .configError => raise .config s
  | .ready => raise .refused s
  | .unconfigured =>
    match recognise s.cfgStr with
    | some sch => .next (respond .ok (sch.code.setWidth 8) { s with scheme := sch, cfgState := .ready })
    | none => raise .config { s with cfgState := .configError }

/-- MOD (R165, R166). A BITLEN above MAXBITS is refused as U8 and R165 say. -/
def execMod (s : State) : Host.Outcome State Fault Refusal :=
  match s.cfgState with
  | .configError => raise .config s
  | .unconfigured => raise .refused s
  | .ready =>
    if s.bitlen < 48 then raise .short s
    else if bitlenLegal s.params s.bitlen then .next (respond .ok 0 (modulate s))
    else .refused .bitlenAboveMaxbits

end Sys2Proof.Machine
end

