-- ==== Sys2Proof/Machine/Translator.lean ====
section
/-! DEFINITION. The command XLT (spec/41_translator.md). -/

namespace Sys2Proof.Machine

/-- XLT (R122, R123). -/
def execXlt (pos : BitVec 6) (s : State) : Host.Outcome State Fault Refusal :=
  unlessConfigError s <|
    match translatePos pos.toNat with
    | none => raise .domain s
    | some k => .next (respond .ok (BitVec.ofNat 8 k) s)

end Sys2Proof.Machine
end

