-- ==== Sys2Proof/Machine/Dispatch.lean ====
section
/-! DEFINITION. One arm per command: the meaning of each (spec/30_encoding.md R86). -/

namespace Sys2Proof.Machine

def exec (i : Instr) (s : State) : Host.Outcome State Fault Refusal :=
  match i with
  | .init => Sys2Proof.Machine.execInit s
  | .mod => Sys2Proof.Machine.execMod s
  | .mapBpsk g => Sys2Proof.Machine.execMapBpsk g s
  | .mapQpsk g => Sys2Proof.Machine.execMapQpsk g s
  | .mapQam16 g => Sys2Proof.Machine.execMapQam16 g s
  | .mapQam64 g => Sys2Proof.Machine.execMapQam64 g s
  | .xlt pos => Sys2Proof.Machine.execXlt pos s

end Sys2Proof.Machine
end

