-- ==== Sys2Proof/Machine/HostPort.lean ====
section
/-! DEFINITION. The host's moves other than a command: register and memory accesses and reset
(spec/70_reset_and_hazards.md R214, spec/10_state.md R30). -/

namespace Sys2Proof.Machine

/-- The 2-bit code of CFG_STATE (R24). -/
def CfgState.code : CfgState → BitVec 2
  | .unconfigured => 0b00#2
  | .ready => 0b01#2
  | .configError => 0b10#2

/-- The number of a register (R30). -/
def RegName.number : RegName → Nat
  | .cfgStr => 0
  | .bitlen => 1
  | .cfgState => 2
  | .scheme => 3
  | .fault => 4
  | .outValid => 5
  | .nframes => 6
  | .tag => 7

/-- The content of a register as an unsigned number. SCHEME while not READY, and NFRAMES and TAG while OUT_VALID is 0,
hold unspecified values (R209): there the read gives the free value number `draws`, within the register's width (U4, U5;
log 7). -/
def State.registerValue (s : State) : RegName → Nat
  | .cfgStr => s.cfgStr.toNat
  | .bitlen => s.bitlen
  | .cfgState => s.cfgState.code.toNat
  | .scheme => (if s.cfgState = .ready then s.scheme else Config.freeScheme s.draws).code.toNat
  | .fault => s.fault.toNat
  | .outValid => s.outValid.toNat
  | .nframes => if s.outValid then s.nframes else freeNframes s.params s.draws
  | .tag => (if s.outValid then s.tag else Config.freeTag s.draws).code.toNat

/-- The counter of free values advances (log 13). -/
def draw (s : State) : State := { s with draws := s.draws + 1 }

/-- The host reads a register; the block is left as it was (R30). -/
def readRegister (r : RegName) (s : State) : State := draw (deliver (.register r (s.registerValue r)) s)

/-- The content of slot `(f, k)` where the spec gives it one: while OUT_VALID is 1, in frames below NFRAMES (R58). -/
def State.validSlot (s : State) (f k : Nat) : Option SlotWord :=
  if s.outValid = true ∧ f < s.nframes then s.slot f k else none

/-- What the host finds in slot `(f, k)`: its content, or a free slot word (R58, U3, U4; log 7). -/
def State.slotValue (s : State) (f k : Nat) : SlotWord := (s.validSlot f k).getD (Config.freeSlot s.draws)

/-- The host reads slot `(f, k)` of FRAMEMEM (R54, R66). -/
def readSlot (f k : Nat) (s : State) : Host.Outcome State Fault Refusal :=
  if frameExists s.params f = true ∧ k < frameSlots then .next (draw (deliver (.slot f k (s.slotValue f k)) s))
  else .fault .framememAddress

/-- The host reads `CROM(sch, x)` (R60, R61). -/
def readCrom (sch : Scheme) (x : Nat) (s : State) : Host.Outcome State Fault Refusal :=
  if x < 2 ^ codeWordLength sch then .next (deliver (.point sch x (Config.crom sch x)) s)
  else .fault .cromAddress

/-- The host writes a register: CFG_STR and BITLEN take a value that fits them; a write to any other register has no
effect (R30). -/
def writeRegister (r : RegName) (v : Nat) (s : State) : Host.Outcome State Fault Refusal :=
  match r with
  | .cfgStr =>
    if v < 2 ^ 64 then .next { s with cfgStr := BitVec.ofNat 64 v } else .refused .valueWiderThanRegister
  | .bitlen =>
    if bitlenHolds s.params v then .next { s with bitlen := v } else .refused .valueWiderThanRegister
  | .cfgState => .next s
  | .scheme => .next s
  | .fault => .next s
  | .outValid => .next s
  | .nframes => .next s
  | .tag => .next s

/-- The host writes cell `a` of BITMEM (R50). -/
def writeBit (a : Nat) (b : Bool) (s : State) : Host.Outcome State Fault Refusal :=
  if bitExists s.params a then .next { s with bitmem := s.bitmem.write a b } else .fault .bitmemAddress

/-- An undecodable word: E_REFUSED in every state, and nothing else changes (R88, R185). -/
def refuseWord (s : State) : Host.Outcome State Fault Refusal := raise .refused s

/-- The host's next move is taken off the port. -/
def State.accept (s : State) (rest : List HostMove) : State := { s with inbox := rest }

end Sys2Proof.Machine
end

