-- ==== Sys2Proof/Machine/Step.lean ====
section
/-! DEFINITION. One step: the host's next move is taken and carried out (spec/20_memory.md R69,
spec/70_reset_and_hazards.md R214, R215). -/

namespace Sys2Proof.Machine

/-- A command word presented to the block: decoded, then executed or refused (R80, R87, R88). -/
def runWord (w : CommandWord) (s : State) : Host.Outcome State Fault Refusal :=
  match decode w with
  | .instr i => exec i s
  | .undecodable _ => refuseWord s

/-- One move of the host. -/
def runMove (m : HostMove) (s : State) : Host.Outcome State Fault Refusal :=
  match m with
  | .command w => runWord w s
  | .writeRegister r v => writeRegister r v s
  | .writeBit a b => writeBit a b s
  | .readRegister r => .next (readRegister r s)
  | .readSlot f k => readSlot f k s
  | .readCrom sch x => readCrom sch x s
  | .reset => .next (resetBlock s)

/-- The step. With no move pending the block is idle and keeps all its state (R198, R215). -/
def step (s : State) : Host.Outcome State Fault Refusal :=
  match s.inbox with
  | [] => .next s
  | m :: rest => runMove m (s.accept rest)

/-- The command word `w` is the host's very next move (log 2). -/
def State.withFetchWord (s : State) (_nbits w : Nat) : State :=
  { s with inbox := .command (BitVec.ofNat 16 w) :: s.inbox }

end Sys2Proof.Machine
end

