-- ==== Sys2Proof/Safety.lean ====
section
/-! DEFINITION. The terms claims are made in: the launch premises of spec/70_reset_and_hazards.md R213, the complete
status table of spec/60_exceptions.md R187, and the invariants of the state. -/

namespace Sys2Proof.Machine

/-! ## Launch premises (R213) -/

/-- (a) What is specified of the state right after reset (R35). -/
def State.Fresh (s : State) : Prop := s.cfgState = .unconfigured ∧ s.fault = 0 ∧ s.outValid = false

/-- (b) READY with scheme `sch`. -/
def State.Ready (s : State) (sch : Scheme) : Prop := s.cfgState = .ready ∧ s.scheme = sch

/-- (c) No fault bit is set. -/
def State.NoFault (s : State) : Prop := s.fault = 0

/-- (d) The host has put the sequence `bits` in place. -/
def State.Input (s : State) (bits : Bits) : Prop :=
  s.bitlen = bits.length ∧ (∀ a b, bits[a]? = some b → s.bit a = b) ∧ bitlenLegal s.params bits.length = true

/-! ## How a command ends -/

/-- MOD has an input it can work on: at least the header, and no more than BITMEM holds (R165). -/
def State.ModInput (s : State) : Prop := 48 ≤ s.bitlen ∧ bitlenLegal s.params s.bitlen = true

/-- The status of a MAP command of scheme `sch` (row MAP.* of R187). -/
def mapStatus (sch : Scheme) (g : Bits) (s : State) : Status :=
  match s.cfgState with
  | .configError => .fault .config
  | .unconfigured => if g.length = codeWordLength sch then .ok else .fault .groupLen
  | .ready => if g.length = codeWordLength sch then .ok else .fault .groupLen

/-- The complete table of which command ends with which status (R187). -/
def statusOf (i : Instr) (s : State) : Status :=
  match i with
  | .init =>
    match s.cfgState with
    | .unconfigured => if (recognise s.cfgStr).isSome then .ok else .fault .config
    | .ready => .fault .refused
    | .configError => .fault .config
  | .mod =>
    match s.cfgState with
    | .unconfigured => .fault .refused
    | .ready => if 48 ≤ s.bitlen then .ok else .fault .short
    | .configError => .fault .config
  | .mapBpsk g => mapStatus .bpsk g s
  | .mapQpsk g => mapStatus .qpsk g s
  | .mapQam16 g => mapStatus .qam16 g s
  | .mapQam64 g => mapStatus .qam64 g s
  | .xlt pos =>
    match s.cfgState with
    | .configError => .fault .config
    | .unconfigured => if pos.toNat ≤ 47 then .ok else .fault .domain
    | .ready => if pos.toNat ≤ 47 then .ok else .fault .domain

/-- From `s` to `t` a command has ended with status `st`: one response was delivered, the last one (R90). -/
def EndedWith (s t : State) (st : Status) : Prop := ∃ d, t.outbox = s.outbox ++ [.response st d]

/-- Everything of `s` but the register FAULT and what has been delivered is as in `t` (R186: "Nothing else changes"). -/
def SameButFault (s t : State) : Prop := { t with fault := s.fault, outbox := s.outbox } = s

/-! ## Invariants -/

/-- `EMPTY_SET` (R8): the slots no position is translated to. -/
def emptySet : List Nat := [5, 19, 26, 33, 47]

/-- A slot word that holds a point of scheme `sch` (R57): occupied, of that scheme, its index below `2^n`. -/
def HoldsPoint (sch : Scheme) (w : SlotWord) : Prop :=
  slotOcc w = true ∧ slotSch w = sch ∧ slotIdx w < 2 ^ codeWordLength sch

/-- Frame `f` is complete (R55): its five empty slots hold the empty word and the 48 others a point of scheme `sch`. -/
def State.FrameComplete (s : State) (f : Nat) (sch : Scheme) : Prop :=
  (∀ k ∈ emptySet, s.slot f k = some emptySlot) ∧
  (∀ k, k < frameSlots → k ∉ emptySet → ∃ w, s.slot f k = some w ∧ HoldsPoint sch w)

/-- Both memories are in canonical form and hold only cells that exist (R50, R54). -/
structure State.MemoryInv (s : State) : Prop where
  bitmem_wf : s.bitmem.wf
  framemem_wf : s.framemem.wf
  bitmem_exists : ∀ c ∈ s.bitmem, bitExists s.params c.1 = true
  framemem_exists : ∀ c ∈ s.framemem, frameExists s.params (c.1 / frameSlots) = true

/-- What OUT_VALID = 1 says (R27, R28, R29): the output model of the last successful MOD is there. -/
structure State.OutputInv (s : State) : Prop where
  ready : s.outValid = true → s.cfgState = .ready
  tag : s.outValid = true → s.tag = s.scheme
  nframes : s.outValid = true → 1 ≤ s.nframes ∧ frameExists s.params (s.nframes - 1) = true
  header : s.outValid = true → s.FrameComplete 0 .bpsk
  payload : s.outValid = true → ∀ f, 1 ≤ f → f < s.nframes → s.FrameComplete f s.tag

/-- The registers hold what they can hold: MAXBITS is at least 48 (R9), BITLEN fits its register (R30), and
CONFIG_ERROR was entered by a fault that set F_CONFIG (R186). -/
structure State.RegisterInv (s : State) : Prop where
  maxBits : ∀ m, s.params.maxBits = some m → 48 ≤ m
  bitlen : bitlenHolds s.params s.bitlen = true
  configError : s.cfgState = .configError → s.fault.getLsbD Cause.config.faultBit = true

/-- The invariant of the machine. -/
structure State.Inv (s : State) : Prop where
  memory : s.MemoryInv
  output : s.OutputInv
  registers : s.RegisterInv

end Sys2Proof.Machine
end

