-- ==== Sys2Proof/Certificates/Slice0/Obligations.lean ====
section
/-! DEFINITION. The statements about the model, each from numbered rules of spec/. -/

open Sys2Proof Sys2Proof.Machine

/-! ## Encoding -/

/-- R94 (and R89): the encoding examples, and INIT and MOD of R93, decode to the commands they are written for. -/
def Obligations.SpecEncodingExamplesDecode : Prop :=
  decode 0x1000#16 = .instr .init ∧
  decode 0x2000#16 = .instr .mod ∧
  decode 0x3040#16 = .instr (.mapBpsk [false]) ∧
  decode 0x3041#16 = .instr (.mapBpsk [true]) ∧
  decode 0x3282#16 = .instr (.mapQpsk [true, false]) ∧
  decode 0x350B#16 = .instr (.mapQam16 [true, false, true, true]) ∧
  decode 0x37B5#16 = .instr (.mapQam64 [true, true, false, true, false, true]) ∧
  decode 0x3482#16 = .instr (.mapQam16 [true, false]) ∧
  decode 0x4000#16 = .instr (.xlt 0) ∧
  decode 0x402F#16 = .instr (.xlt 47) ∧
  decode 0x4030#16 = .instr (.xlt 48) ∧
  decode 0x3042#16 = .undecodable .mapBitsAboveGroup ∧
  decode 0x31C0#16 = .undecodable .mapLengthSeven ∧
  decode 0x0000#16 = .undecodable .reservedOpcode ∧
  decode 0x1001#16 = .undecodable .zFieldNotZero

/-- R81 to R89: decoding the word of any well-formed command, with every operand it admits, gives that command back. -/
def Obligations.DecodeOfEncodeIsTheInstruction : Prop :=
  ∀ i : Instr, i.WellFormed → decode (encode i) = .instr i

/-- R87: a word that decodes is the word of the command it decodes to, and that command is well-formed; so no two words
stand for one command and no operand of a decoded command is outside its field. -/
def Obligations.EncodeOfDecodeIsTheWord : Prop :=
  ∀ (w : CommandWord) (i : Instr), decode w = .instr i → i.WellFormed ∧ encode i = w

/-- R86: a word that decodes selects the row of its command and no other row of the map; the seven rows are those of
the table. -/
def Obligations.DecodableWordSelectsOneRow : Prop :=
  (∀ (w : CommandWord) (i : Instr), decode w = .instr i →
    i.row.selectedBy w = true ∧ ∀ r ∈ opcodeRows, r.selectedBy w = true → r = i.row) ∧
  (∀ r ∈ opcodeRows, ∀ r' ∈ opcodeRows, ∀ w : CommandWord, r.selectedBy w = true → r'.selectedBy w = true → r = r')

/-- R93: the words of the textual commands, as numbers. -/
def Obligations.WordsOfTheTextualCommands : Prop :=
  (encode .init).toNat = 0x1000 ∧
  (encode .mod).toNat = 0x2000 ∧
  (∀ (sch : Scheme) (g : Bits), g.length ≤ 6 →
    (encode (.mapOf sch g)).toNat = 0x3000 + 512 * sch.code.toNat + 64 * g.length + groupIndex g) ∧
  (∀ pos : BitVec 6, (encode (.xlt pos)).toNat = 0x4000 + pos.toNat)

/-- R88: a word is undecodable exactly in the cases (a) to (f), and an undecodable word, in every state, ends with
E_REFUSED and sets F_REFUSED, and nothing else changes (but that the word is taken off the host's port). -/
def Obligations.UndecodableWordsAreRefused : Prop :=
  ∀ w : CommandWord,
    ((∃ why, decode w = .undecodable why) ↔
      ((w.toNat / 4096 = 0 ∨ 5 ≤ w.toNat / 4096) ∨
        ((w.toNat / 4096 = 1 ∨ w.toNat / 4096 = 2) ∧ w.toNat % 4096 ≠ 0) ∨
        (w.toNat / 4096 = 3 ∧ w.toNat / 2048 % 2 = 1) ∨
        (w.toNat / 4096 = 3 ∧ w.toNat / 64 % 8 = 7) ∨
        (w.toNat / 4096 = 3 ∧ ∃ j, w.toNat / 64 % 8 ≤ j ∧ j ≤ 5 ∧ w.getLsbD j = true) ∨
        (w.toNat / 4096 = 4 ∧ w.toNat / 64 % 64 ≠ 0))) ∧
    ∀ (why : Undecodable) (s : State) (rest : List HostMove),
      decode w = .undecodable why → s.inbox = .command w :: rest →
      step s = .next { s with
        inbox := rest
        fault := s.fault ||| 0b10000#5
        outbox := s.outbox ++ [.response (.fault .refused) 0] }

/-- R63: the index of a bit group is the sum over j of `g{j} * 2^(n-1-j)`, the first bit being the most significant. -/
def Obligations.GroupIndexIsTheBinaryValue : Prop :=
  ∀ g : Bits, groupIndex g = ∑ j ∈ Finset.range g.length, (g.getD j false).toNat * 2 ^ (g.length - 1 - j)

/-- R84 and R7: codes, code word lengths and numbers of table entries of the four schemes; no code is illegal. -/
def Obligations.SchemeCodesAndLengths : Prop :=
  (Scheme.bpsk.code = 0b00#2 ∧ codeWordLength .bpsk = 1) ∧
  (Scheme.qpsk.code = 0b01#2 ∧ codeWordLength .qpsk = 2) ∧
  (Scheme.qam16.code = 0b10#2 ∧ codeWordLength .qam16 = 4) ∧
  (Scheme.qam64.code = 0b11#2 ∧ codeWordLength .qam64 = 6) ∧
  (∀ c : BitVec 2, (Scheme.ofCode c).code = c) ∧
  (∀ s : Scheme, Scheme.ofCode s.code = s)

/-- R180, R24 and R30: the status codes 0 to 5 (6 and 7 are never delivered), the bit of FAULT of each fault, the codes
of CFG_STATE (0b11 never occurs), and the numbers of the registers. -/
def Obligations.StatusAndStateCodes : Prop :=
  Status.ok.code = 0#3 ∧
  (Status.fault .config).code = 1#3 ∧
  (Status.fault .groupLen).code = 2#3 ∧
  (Status.fault .domain).code = 3#3 ∧
  (Status.fault .short).code = 4#3 ∧
  (Status.fault .refused).code = 5#3 ∧
  (∀ c : Cause, c.faultBit + 1 = (Status.fault c).code.toNat ∧ c.faultBit < 5) ∧
  (CfgState.unconfigured.code = 0b00#2 ∧ CfgState.ready.code = 0b01#2 ∧ CfgState.configError.code = 0b10#2) ∧
  [RegName.cfgStr, .bitlen, .cfgState, .scheme, .fault, .outValid, .nframes, .tag].map RegName.number =
    [0, 1, 2, 3, 4, 5, 6, 7]

/-! ## The step -/

/-- R80, R87: when the host's next move is a command word that decodes, the step is the meaning of the command on the
state without that move; so is the step of the state in which `withFetchWord` has placed the word. -/
def Obligations.StepRunsTheDecodedCommand : Prop :=
  ∀ (s : State) (w : CommandWord) (rest : List HostMove) (i : Instr), decode w = .instr i →
    (s.inbox = .command w :: rest → step s = exec i { s with inbox := rest }) ∧
    step (s.withFetchWord 16 w.toNat) = exec i s

/-- R198: with no move of the host pending the block is idle and keeps all its state. -/
def Obligations.IdleBlockKeepsItsState : Prop :=
  ∀ s : State, s.inbox = [] → step s = .next s

/-- R90, R168: every command word, decodable or not, in every state whose BITLEN is legal (R213 (d)), ends with a next
state and exactly one response; a response that is not OK has data 0x00. -/
def Obligations.EveryCommandEndsWithOneResponse : Prop :=
  ∀ (s : State) (w : CommandWord) (rest : List HostMove),
    s.inbox = .command w :: rest → (∀ m, s.params.maxBits = some m → s.bitlen ≤ m) →
    ∃ t st d, step s = .next t ∧ t.inbox = rest ∧ t.outbox = s.outbox ++ [.response st d] ∧ (st ≠ .ok → d = 0)

/-- R215: a run of m commands, from any state whose BITLEN is legal, completes in m steps, and delivers m responses. -/
def Obligations.RunOfCommandsCompletesInAsManySteps : Prop :=
  ∀ (ws : List CommandWord) (s : State),
    s.inbox = ws.map HostMove.command → (∀ m, s.params.maxBits = some m → s.bitlen ≤ m) →
    ∃ (t : State) (rs : List (Status × BitVec 8)),
      core.run ws.length s = .next t ∧ t.inbox = [] ∧ rs.length = ws.length ∧
        t.outbox = s.outbox ++ rs.map fun r => .response r.1 r.2

/-! ## The mapper -/

/-- R102 to R106: the four MAP commands, in UNCONFIGURED and READY alike: the result of a group of the scheme's length,
bit by bit; E_GROUPLEN for a group of any other length; E_CONFIG in CONFIG_ERROR. The next state is the given one, so
nothing but what is named changes. -/
def Obligations.MapCommandsRespond : Prop :=
  (∀ s : State, s.cfgState ≠ .configError → ∀ b0 b1 b2 b3 b4 b5 : Bool,
    exec (.mapBpsk [b0]) s = .next { s with outbox := s.outbox ++
      [.response .ok (0b00#2 ++ 0b00000#5 ++ BitVec.ofBool b0)] } ∧
    exec (.mapQpsk [b0, b1]) s = .next { s with outbox := s.outbox ++
      [.response .ok (0b01#2 ++ 0b0000#4 ++ BitVec.ofBool b0 ++ BitVec.ofBool b1)] } ∧
    exec (.mapQam16 [b0, b1, b2, b3]) s = .next { s with outbox := s.outbox ++
      [.response .ok (0b10#2 ++ 0b00#2 ++ BitVec.ofBool b0 ++ BitVec.ofBool b1 ++ BitVec.ofBool b2 ++
        BitVec.ofBool b3)] } ∧
    exec (.mapQam64 [b0, b1, b2, b3, b4, b5]) s = .next { s with outbox := s.outbox ++
      [.response .ok (0b11#2 ++ BitVec.ofBool b0 ++ BitVec.ofBool b1 ++ BitVec.ofBool b2 ++ BitVec.ofBool b3 ++
        BitVec.ofBool b4 ++ BitVec.ofBool b5)] }) ∧
  (∀ (sch : Scheme) (g : Bits) (s : State), s.cfgState ≠ .configError → g.length ≠ codeWordLength sch →
    exec (.mapOf sch g) s = .next { s with
      fault := s.fault ||| 0b00010#5
      outbox := s.outbox ++ [.response (.fault .groupLen) 0] }) ∧
  (∀ (sch : Scheme) (g : Bits) (s : State), s.cfgState = .configError →
    exec (.mapOf sch g) s = .next { s with
      fault := s.fault ||| 0b00001#5
      outbox := s.outbox ++ [.response (.fault .config) 0] })

/-- R101 (b), (c): for a fixed scheme, `map` is a bijection from the groups of its code word length onto the references
`{s, 0}` to `{s, 2^n - 1}`. -/
def Obligations.MapIsABijectionOntoTheReferences : Prop :=
  (∀ (s : Scheme) (g h : Bits), g.length = codeWordLength s → h.length = codeWordLength s →
    mapPoint s g = mapPoint s h → g = h) ∧
  (∀ (s : Scheme) (r : PointRef),
    (∃ g : Bits, g.length = codeWordLength s ∧ mapPoint s g = r) ↔
      r.toNat / 64 = s.code.toNat ∧ r.toNat % 64 < 2 ^ codeWordLength s)

/-! ## The translator -/

/-- R120, R121: the six ranges of the translator's table, and no result outside 0..47. -/
def Obligations.TranslateIsTheSixRangeTable : Prop :=
  ∀ p : Nat,
    (p ≤ 4 → translatePos p = some p) ∧
    (5 ≤ p → p ≤ 17 → translatePos p = some (p + 1)) ∧
    (18 ≤ p → p ≤ 23 → translatePos p = some (p + 2)) ∧
    (24 ≤ p → p ≤ 29 → translatePos p = some (p + 3)) ∧
    (30 ≤ p → p ≤ 42 → translatePos p = some (p + 4)) ∧
    (43 ≤ p → p ≤ 47 → translatePos p = some (p + 5)) ∧
    (48 ≤ p → translatePos p = none)

/-- R125, R126: the translator is defined exactly on 0..47 and strictly increasing, its outputs are exactly the 48-element
set OCC, 0..52 without 5, 19, 26, 33 and 47, and in signed form exactly the 48 data-bearing subcarriers, 0 not among
them. -/
def Obligations.TranslateIncreasesOntoTheDataSubcarriers : Prop :=
  (∀ p : Nat, (∃ k, translatePos p = some k) ↔ p ≤ 47) ∧
  (∀ p q k l : Nat, translatePos p = some k → translatePos q = some l → p < q → k < l) ∧
  (∀ k : Nat, (∃ p, translatePos p = some k) ↔
    k ≤ 4 ∨ (6 ≤ k ∧ k ≤ 18) ∨ (20 ≤ k ∧ k ≤ 25) ∨ (27 ≤ k ∧ k ≤ 32) ∨ (34 ≤ k ∧ k ≤ 46) ∨ (48 ≤ k ∧ k ≤ 52)) ∧
  (∀ k : Nat, k ≤ 52 → ((∀ p, translatePos p ≠ some k) ↔ k ∈ [5, 19, 26, 33, 47])) ∧
  (∀ z : Int, (∃ p k, translatePos p = some k ∧ signedIndex k = z) ↔
    (-26 ≤ z ∧ z ≤ -22) ∨ (-20 ≤ z ∧ z ≤ -8) ∨ (-6 ≤ z ∧ z ≤ -1) ∨ (1 ≤ z ∧ z ≤ 6) ∨ (8 ≤ z ∧ z ≤ 20) ∨
      (22 ≤ z ∧ z ≤ 26)) ∧
  (∀ p k : Nat, translatePos p = some k → signedIndex k ≠ 0)

/-- R127: the inverse of the translator, the position a slot is filled from, range by range; the five empty slots are
filled from none. -/
def Obligations.PositionOfASlot : Prop :=
  (∀ k p : Nat, positionOf k = some p ↔ translatePos p = some k) ∧
  (∀ k : Nat, (k ≤ 4 → positionOf k = some k) ∧
    (6 ≤ k → k ≤ 18 → positionOf k = some (k - 1)) ∧
    (20 ≤ k → k ≤ 25 → positionOf k = some (k - 2)) ∧
    (27 ≤ k → k ≤ 32 → positionOf k = some (k - 3)) ∧
    (34 ≤ k → k ≤ 46 → positionOf k = some (k - 4)) ∧
    (48 ≤ k → k ≤ 52 → positionOf k = some (k - 5))) ∧
  (∀ k ∈ [5, 19, 26, 33, 47], positionOf k = none)

/-- R122, R123: XLT responds with the slot index for a position in 0..47, E_DOMAIN for 48..63, E_CONFIG in CONFIG_ERROR;
nothing but what is named changes. -/
def Obligations.XltResponds : Prop :=
  ∀ (pos : BitVec 6) (s : State),
    (s.cfgState ≠ .configError → pos.toNat ≤ 47 → ∃ k, translatePos pos.toNat = some k ∧ k ≤ 52 ∧
      exec (.xlt pos) s = .next { s with outbox := s.outbox ++ [.response .ok (BitVec.ofNat 8 k)] }) ∧
    (s.cfgState ≠ .configError → 48 ≤ pos.toNat →
      exec (.xlt pos) s = .next { s with
        fault := s.fault ||| 0b00100#5
        outbox := s.outbox ++ [.response (.fault .domain) 0] }) ∧
    (s.cfgState = .configError →
      exec (.xlt pos) s = .next { s with
        fault := s.fault ||| 0b00001#5
        outbox := s.outbox ++ [.response (.fault .config) 0] })

/-! ## The assembler -/

/-- R141: `mkframe` of 48 points has 53 slots; point `i` is at slot `translate(i)` as `0x100 + pts{i}`, and slots 5, 19,
26, 33 and 47 are 0x000. -/
def Obligations.MkframePlacesThePoints : Prop :=
  ∀ pts : List PointRef, pts.length = 48 →
    (mkframe pts).length = 53 ∧
    (∀ (i k : Nat) (r : PointRef), pts[i]? = some r → translatePos i = some k →
      (mkframe pts)[k]? = some (BitVec.ofNat 9 (0x100 + r.toNat))) ∧
    (∀ k ∈ [5, 19, 26, 33, 47], (mkframe pts)[k]? = some 0x000#9)

/-- R147: the two forms of the frame count are equal; a payload of exactly `48*n*k` bits gives k frames; payload bits
per frame of each scheme; and the output model of an input of at least 48 bits has one header frame and
`floor((N - 48) / (48 * n))` payload frames, of 53 slots each. -/
def Obligations.NumberOfFrames : Prop :=
  (∀ L n : Nat, 0 < n → L / n / 48 = L / (48 * n)) ∧
  (∀ (s : Scheme) (pl : Bits) (k : Nat), pl.length = 48 * codeWordLength s * k → (payloadFrames s pl).length = k) ∧
  (48 * codeWordLength .bpsk = 48 ∧ 48 * codeWordLength .qpsk = 96 ∧ 48 * codeWordLength .qam16 = 192 ∧
    48 * codeWordLength .qam64 = 288) ∧
  (∀ (s : Scheme) (bits : Bits), 48 ≤ bits.length →
    (outputFrames s bits).length = 1 + (bits.length - 48) / (48 * codeWordLength s) ∧
    ∀ F ∈ outputFrames s bits, F.length = 53)

/-- R142, R143: after a successful MOD, slot `translate(i)` of frame 0 is 0x101 or 0x100 as header bit `i` is 1 or 0,
whatever SCHEME is, and the five empty slots are 0x000. -/
def Obligations.ModHeaderFrame : Prop :=
  ∀ s t : State, exec .mod s = .next t → s.cfgState = .ready → 48 ≤ s.bitlen →
    (∀ i k : Nat, translatePos i = some k → t.slot 0 k = some (if s.bit i then 0x101#9 else 0x100#9)) ∧
    (∀ k ∈ [5, 19, 26, 33, 47], t.slot 0 k = some 0x000#9)

/-- R148, R151: after a successful MOD, payload frame `f` is frame `1 + f`; its slot `translate(i)` is
`0x100 + map(SCHEME, MemRead(48 + (48*f + i)*n, n))`, all of whose bits are below BITLEN, and its five empty slots are
0x000. -/
def Obligations.ModPayloadFrames : Prop :=
  ∀ s t : State, exec .mod s = .next t → s.cfgState = .ready → 48 ≤ s.bitlen →
    ∀ f : Nat, f < (s.bitlen - 48) / (48 * codeWordLength s.scheme) →
      (∀ i k : Nat, translatePos i = some k →
        48 + (48 * f + i) * codeWordLength s.scheme + codeWordLength s.scheme ≤ s.bitlen ∧
        t.slot (1 + f) k = some (BitVec.ofNat 9 (0x100 + 64 * s.scheme.code.toNat +
          groupIndex (s.memRead (48 + (48 * f + i) * codeWordLength s.scheme) (codeWordLength s.scheme))))) ∧
      (∀ k ∈ [5, 19, 26, 33, 47], t.slot (1 + f) k = some 0x000#9)

/-- R56 (frame of MOD): a successful MOD writes all 53 slots of frames 0 to NFRAMES - 1, the empty ones with the empty
word, and no other cell of FRAMEMEM; every bit of BITMEM reads as before. -/
def Obligations.ModWritesItsFramesOnly : Prop :=
  ∀ s t : State, exec .mod s = .next t → s.cfgState = .ready → 48 ≤ s.bitlen →
    (∀ f k : Nat, f < t.nframes → k < 53 → ∃ w, t.slot f k = some w) ∧
    (∀ f k : Nat, f < t.nframes → k ∈ [5, 19, 26, 33, 47] → t.slot f k = some 0x000#9) ∧
    (∀ a : Nat, (∀ f k : Nat, f < t.nframes → k < 53 → a ≠ slotAddr f k) → t.framemem.read a = s.framemem.read a) ∧
    (∀ a : Nat, t.bit a = s.bit a)

/-! ## INIT and MOD -/

/-- R161, R163: INIT, clause by clause; nothing but what is named changes. -/
def Obligations.InitResolvesTheScheme : Prop :=
  ∀ s : State,
    (s.cfgState = .unconfigured →
      (∀ sch : Scheme,
        (s.cfgStr, sch) ∈ [(0x000000004B535042#64, Scheme.bpsk), (0x000000004B535051#64, Scheme.qpsk),
          (0x000036312D4D4151#64, Scheme.qam16), (0x000034362D4D4151#64, Scheme.qam64)] →
        exec .init s = .next { s with
          scheme := sch
          cfgState := .ready
          outbox := s.outbox ++ [.response .ok (0b000000#6 ++ sch.code)] }) ∧
      (s.cfgStr ∉ [0x000000004B535042#64, 0x000000004B535051#64, 0x000036312D4D4151#64, 0x000034362D4D4151#64] →
        exec .init s = .next { s with
          cfgState := .configError
          fault := s.fault ||| 0b00001#5
          outbox := s.outbox ++ [.response (.fault .config) 0] })) ∧
    (s.cfgState = .ready →
      exec .init s = .next { s with
        fault := s.fault ||| 0b10000#5
        outbox := s.outbox ++ [.response (.fault .refused) 0] }) ∧
    (s.cfgState = .configError →
      exec .init s = .next { s with
        fault := s.fault ||| 0b00001#5
        outbox := s.outbox ++ [.response (.fault .config) 0] })

/-- R162: the four names laid out as CFG_STR holds them; exactly these four words are recognised; a string of eight or
more characters never is, nor are QAM-256, QAM16, QAM64, bpsk, the empty string, and BPSK with a blank. -/
def Obligations.ConfigurationStringsRecognised : Prop :=
  configWord [0x42, 0x50, 0x53, 0x4B] = 0x000000004B535042#64 ∧
  configWord [0x51, 0x50, 0x53, 0x4B] = 0x000000004B535051#64 ∧
  configWord [0x51, 0x41, 0x4D, 0x2D, 0x31, 0x36] = 0x000036312D4D4151#64 ∧
  configWord [0x51, 0x41, 0x4D, 0x2D, 0x36, 0x34] = 0x000034362D4D4151#64 ∧
  (∀ (w : ConfigWord) (s : Scheme), recognise w = some s ↔
    (w, s) ∈ [(0x000000004B535042#64, Scheme.bpsk), (0x000000004B535051#64, Scheme.qpsk),
      (0x000036312D4D4151#64, Scheme.qam16), (0x000034362D4D4151#64, Scheme.qam64)]) ∧
  (∀ chars : List (BitVec 8), 8 ≤ chars.length → (∀ c ∈ chars, c ≠ 0) → recognise (configWord chars) = none) ∧
  recognise (configWord [0x51, 0x41, 0x4D, 0x2D, 0x32, 0x35, 0x36]) = none ∧
  recognise (configWord [0x51, 0x41, 0x4D, 0x31, 0x36]) = none ∧
  recognise (configWord [0x51, 0x41, 0x4D, 0x36, 0x34]) = none ∧
  recognise (configWord [0x62, 0x70, 0x73, 0x6B]) = none ∧
  recognise (configWord []) = none ∧
  recognise (configWord [0x42, 0x50, 0x53, 0x4B, 0x20]) = none ∧
  recognise (configWord [0x20, 0x42, 0x50, 0x53, 0x4B]) = none

/-- R22, R64: character `j` of a string, of which the first eight are presented, is in bits `8j+7:8j` of CFG_STR, and
every byte after the last character is zero. -/
def Obligations.ConfigWordLayout : Prop :=
  ∀ (chars : List (BitVec 8)) (j : Nat), j < 8 → (configWord chars).extractLsb' (8 * j) 8 = chars.getD j 0

/-- R165 and the registers of R166: what MOD checks, in order, and the registers it leaves; a BITLEN above MAXBITS is
refused by the model (U8). Nothing but what is named changes; the content of FRAMEMEM is in ModHeaderFrame,
ModPayloadFrames and ModWritesItsFramesOnly. -/
def Obligations.ModChecksInOrderAndCompletes : Prop :=
  ∀ s : State,
    (s.cfgState = .configError →
      exec .mod s = .next { s with
        fault := s.fault ||| 0b00001#5
        outbox := s.outbox ++ [.response (.fault .config) 0] }) ∧
    (s.cfgState = .unconfigured →
      exec .mod s = .next { s with
        fault := s.fault ||| 0b10000#5
        outbox := s.outbox ++ [.response (.fault .refused) 0] }) ∧
    (s.cfgState = .ready → s.bitlen < 48 →
      exec .mod s = .next { s with
        fault := s.fault ||| 0b01000#5
        outbox := s.outbox ++ [.response (.fault .short) 0] }) ∧
    (s.cfgState = .ready → 48 ≤ s.bitlen → (∀ m, s.params.maxBits = some m → s.bitlen ≤ m) →
      ∃ fm : Memory SlotWord, exec .mod s = .next { s with
        framemem := fm
        nframes := 1 + (s.bitlen - 48) / (48 * codeWordLength s.scheme)
        tag := s.scheme
        outValid := true
        outbox := s.outbox ++ [.response .ok 0] }) ∧
    (s.cfgState = .ready → 48 ≤ s.bitlen → (∃ m, s.params.maxBits = some m ∧ m < s.bitlen) →
      exec .mod s = .refused .bitlenAboveMaxbits)

/-- R146, R167 (f): two successful MODs with the same scheme, the same number of frames and the same bits below
`48 + 48*n*K` write the same output model and give the same response, whatever else differs: the dropped bits, earlier
outputs, FAULT, the parameters and the draws of free values have no effect on it. -/
def Obligations.ModOutputDependsOnItsInputOnly : Prop :=
  ∀ s s' t t' : State,
    exec .mod s = .next t → exec .mod s' = .next t' →
    s.cfgState = .ready → s'.cfgState = .ready → 48 ≤ s.bitlen → 48 ≤ s'.bitlen → s.scheme = s'.scheme →
    (s.bitlen - 48) / (48 * codeWordLength s.scheme) = (s'.bitlen - 48) / (48 * codeWordLength s.scheme) →
    (∀ a : Nat, a < 48 + 48 * codeWordLength s.scheme * ((s.bitlen - 48) / (48 * codeWordLength s.scheme)) →
      s.bit a = s'.bit a) →
    t.nframes = t'.nframes ∧ t.tag = t'.tag ∧ t.outValid = t'.outValid ∧
      (∀ f k : Nat, f < t.nframes → k < 53 → t.slot f k = t'.slot f k) ∧
      t.outbox.getLast? = t'.outbox.getLast?

/-! ## Faults and configuration states -/

/-- R187: which command word ends with which status, complete (`statusOf` is the table). -/
def Obligations.StatusOfEveryCommand : Prop :=
  ∀ (s t : State) (w : CommandWord) (rest : List HostMove),
    s.inbox = .command w :: rest → step s = .next t →
    EndedWith s t (match decode w with
      | .instr i => statusOf i s
      | .undecodable _ => .fault .refused)

/-- R186, R92: a command that ends with fault `c` sets `FAULT[c-1]`, moves CFG_STATE to CONFIG_ERROR only if it is INIT
with an unrecognised string, responds `(c, 0x00)`, and changes nothing else. -/
def Obligations.FaultEntryChangesNothingElse : Prop :=
  ∀ (i : Instr) (s : State) (c : Cause), statusOf i s = .fault c →
    exec i s = .next { s with
      fault := s.fault ||| (1#5 <<< (c.code - 1))
      cfgState := if i = .init ∧ s.cfgState = .unconfigured then .configError else s.cfgState
      outbox := s.outbox ++ [.response (.fault c) 0] }

/-- R26: a command that ends with OK leaves FAULT, one that ends with code `c` sets bit `c-1` and leaves the others; no
step but reset clears a bit, and reset clears them all. -/
def Obligations.FaultBitsAreSticky : Prop :=
  ∀ s t : State, step s = .next t →
    (∀ w st d, s.inbox.head? = some (.command w) → t.outbox = s.outbox ++ [.response st d] →
      t.fault = match st with
        | .ok => s.fault
        | .fault c => s.fault ||| (1#5 <<< (c.code - 1))) ∧
    (s.inbox.head? ≠ some .reset → ∀ b : Nat, s.fault.getLsbD b = true → t.fault.getLsbD b = true) ∧
    (s.inbox.head? = some .reset → t.fault = 0)

/-- R107, R123, R150, R184: only a MAP command can end with E_GROUPLEN, only XLT at a position above 47 with E_DOMAIN,
only MOD with E_SHORT; in particular MOD never ends with E_GROUPLEN or E_DOMAIN. -/
def Obligations.OperandFaultsOfTheirCommandsOnly : Prop :=
  ∀ (i : Instr) (s t : State) (c : Cause) (d : BitVec 8),
    exec i s = .next t → t.outbox = s.outbox ++ [.response (.fault c) d] →
    (c = .groupLen → ∃ sch g, i = .mapOf sch g ∧ g.length ≠ codeWordLength sch) ∧
    (c = .domain → ∃ pos, i = .xlt pos ∧ 48 ≤ pos.toNat) ∧
    (c = .short → i = .mod ∧ s.bitlen < 48)

/-- R191: CONFIG_ERROR is absorbing: every decodable command ends with E_CONFIG and every undecodable word with
E_REFUSED, with no other effect, and no step but reset leaves the state. -/
def Obligations.ConfigErrorIsAbsorbing : Prop :=
  ∀ s : State, s.cfgState = .configError →
    (∀ (w : CommandWord) (rest : List HostMove) (i : Instr), s.inbox = .command w :: rest → decode w = .instr i →
      step s = .next { s with
        inbox := rest
        fault := s.fault ||| 0b00001#5
        outbox := s.outbox ++ [.response (.fault .config) 0] }) ∧
    (∀ (w : CommandWord) (rest : List HostMove) (why : Undecodable), s.inbox = .command w :: rest →
      decode w = .undecodable why →
      step s = .next { s with
        inbox := rest
        fault := s.fault ||| 0b10000#5
        outbox := s.outbox ++ [.response (.fault .refused) 0] }) ∧
    (∀ t : State, step s = .next t → s.inbox.head? ≠ some .reset → t.cfgState = .configError)

/-- R34, R25: the transitions of CFG_STATE, complete: reset goes to UNCONFIGURED; INIT in UNCONFIGURED goes to READY with
the scheme of the string, or to CONFIG_ERROR if it is none of the four; every other step keeps CFG_STATE and SCHEME. -/
def Obligations.TransitionsOfCfgState : Prop :=
  ∀ s t : State, step s = .next t →
    (s.inbox.head? = some .reset → t.cfgState = .unconfigured) ∧
    (s.inbox.head? = some (.command 0x1000#16) → s.cfgState = .unconfigured →
      (∃ sch, recognise s.cfgStr = some sch ∧ t.cfgState = .ready ∧ t.scheme = sch) ∨
        (recognise s.cfgStr = none ∧ t.cfgState = .configError ∧ t.scheme = s.scheme)) ∧
    (s.inbox.head? ≠ some .reset → ¬(s.inbox.head? = some (.command 0x1000#16) ∧ s.cfgState = .unconfigured) →
      t.cfgState = s.cfgState ∧ t.scheme = s.scheme)

/-- R190: after a fault, other than INIT's configuration error, the next command does what it would have done had the
faulting one not been issued, but that the fault's bit stays set; and the same command again gives the same fault. -/
def Obligations.FaultingCommandLeavesOnlyItsBit : Prop :=
  ∀ (i : Instr) (s t : State) (c : Cause), exec i s = .next t → statusOf i s = .fault c →
    statusOf i t = .fault c ∧
    (¬(i = .init ∧ s.cfgState = .unconfigured) → ∀ j : Instr,
      (∀ u : State, exec j s = .next u → ∃ v : State, exec j t = .next v ∧
        v.outbox.getLast? = u.outbox.getLast? ∧
        v.fault = u.fault ||| (1#5 <<< (c.code - 1)) ∧
        { v with fault := u.fault, outbox := u.outbox } = u) ∧
      (∀ r : Refusal, exec j s = .refused r → exec j t = .refused r))

/-! ## Reset -/

/-- R201, R35, R27: reset gives UNCONFIGURED, no fault bit, no valid output, and leaves CFG_STR, BITLEN and BITMEM; and
it is the only way to leave READY or CONFIG_ERROR, to clear a fault bit, or to clear OUT_VALID. -/
def Obligations.ResetAndOnlyReset : Prop :=
  (∀ (s : State) (rest : List HostMove), s.inbox = .reset :: rest →
    ∃ t, step s = .next t ∧ t.Fresh ∧ t.cfgStr = s.cfgStr ∧ t.bitlen = s.bitlen ∧ t.bitmem = s.bitmem ∧
      t.params = s.params ∧ t.inbox = rest ∧ t.outbox = s.outbox) ∧
  (∀ s t : State, step s = .next t →
    ((s.cfgState = .ready ∧ t.cfgState ≠ .ready) ∨ (s.cfgState = .configError ∧ t.cfgState ≠ .configError) ∨
      (∃ b : Nat, s.fault.getLsbD b = true ∧ t.fault.getLsbD b = false) ∨
      (s.outValid = true ∧ t.outValid = false)) →
    s.inbox.head? = some .reset)

/-- R35: the state right after reset is fresh, and nothing is pending or delivered. -/
def Obligations.ResetStateIsFresh : Prop :=
  State.reset.Fresh ∧ State.reset.NoFault ∧ State.reset.inbox = [] ∧ State.reset.outbox = []

/-! ## The host -/

/-- R69, R214: a command writes none of CFG_STR, BITLEN and BITMEM; a move of the host that is neither a command nor
reset writes none of CFG_STATE, SCHEME, FAULT, OUT_VALID, NFRAMES, TAG and FRAMEMEM. -/
def Obligations.EveryPieceOfStateHasOneWriter : Prop :=
  ∀ (s t : State) (m : HostMove) (rest : List HostMove), s.inbox = m :: rest → step s = .next t →
    (∀ w, m = .command w → t.cfgStr = s.cfgStr ∧ t.bitlen = s.bitlen ∧ t.bitmem = s.bitmem) ∧
    ((∀ w, m ≠ .command w) → m ≠ .reset →
      t.cfgState = s.cfgState ∧ t.scheme = s.scheme ∧ t.fault = s.fault ∧ t.outValid = s.outValid ∧
        t.nframes = s.nframes ∧ t.tag = s.tag ∧ t.framemem = s.framemem) ∧
    t.params = s.params

/-- R30: the host's register writes: CFG_STR and BITLEN take the value, a write to any other register has no effect. -/
def Obligations.HostRegisterWrites : Prop :=
  ∀ (s : State) (r : RegName) (v : Nat) (rest : List HostMove), s.inbox = .writeRegister r v :: rest →
    (r = .cfgStr → v < 2 ^ 64 → step s = .next { s with inbox := rest, cfgStr := BitVec.ofNat 64 v }) ∧
    (r = .bitlen → (∀ m, s.params.maxBits = some m → v ≤ m) → step s = .next { s with inbox := rest, bitlen := v }) ∧
    (r ≠ .cfgStr → r ≠ .bitlen → step s = .next { s with inbox := rest })

/-- R50, R53: a bit the host writes is read back, every other bit reads as before, and nothing else changes; a cell at or
above MAXBITS does not exist. -/
def Obligations.HostBitWrites : Prop :=
  ∀ (s : State) (a : Nat) (b : Bool) (rest : List HostMove), s.inbox = .writeBit a b :: rest →
    ((∀ m, s.params.maxBits = some m → a < m) →
      ∃ bm : Memory Bool, step s = .next { s with inbox := rest, bitmem := bm } ∧
        ∀ a' : Nat, ({ s with inbox := rest, bitmem := bm } : State).bit a' = if a' = a then b else s.bit a') ∧
    ((∃ m, s.params.maxBits = some m ∧ m ≤ a) → step s = .fault .bitmemAddress)

/-- R30, R66 ("No register has a side effect on read"; "No address has a side effect on read"): a read delivers one value
to the host and changes nothing of the block (`draws` is the model's own counter, log 13). -/
def Obligations.HostReadsHaveNoSideEffect : Prop :=
  ∀ (s t : State) (m : HostMove) (rest : List HostMove), s.inbox = m :: rest → step s = .next t →
    ((∃ r, m = .readRegister r) ∨ (∃ f k, m = .readSlot f k) ∨ (∃ sch x, m = .readCrom sch x)) →
    (∃ o, t.outbox = s.outbox ++ [o]) ∧ t.inbox = rest ∧
      { t with inbox := s.inbox, outbox := s.outbox, draws := s.draws } = s

/-- R30, R58, R61, R209: what a read delivers where the spec gives a value: the five registers that always hold one,
SCHEME while READY, NFRAMES and TAG while OUT_VALID is 1, a slot of a frame below NFRAMES while OUT_VALID is 1, and an
existing entry of CROM. -/
def Obligations.HostReadsDeliverTheContent : Prop :=
  ∀ (s : State) (rest : List HostMove),
    (∀ r : RegName, s.inbox = .readRegister r :: rest →
      (r = .scheme → s.cfgState = .ready) → (r = .nframes → s.outValid = true) → (r = .tag → s.outValid = true) →
      ∃ t, step s = .next t ∧ t.outbox = s.outbox ++ [.register r (match r with
        | .cfgStr => s.cfgStr.toNat
        | .bitlen => s.bitlen
        | .cfgState => s.cfgState.code.toNat
        | .scheme => s.scheme.code.toNat
        | .fault => s.fault.toNat
        | .outValid => s.outValid.toNat
        | .nframes => s.nframes
        | .tag => s.tag.code.toNat)]) ∧
    (∀ (f k : Nat) (w : SlotWord), s.inbox = .readSlot f k :: rest → s.outValid = true → f < s.nframes → k < 53 →
      (∀ m, s.params.maxBits = some m → f < 1 + (m - 48) / 48) → s.slot f k = some w →
      ∃ t, step s = .next t ∧ t.outbox = s.outbox ++ [.slot f k w]) ∧
    (∀ (sch : Scheme) (x : Nat), s.inbox = .readCrom sch x :: rest → x < 2 ^ codeWordLength sch →
      ∃ t, step s = .next t ∧ t.outbox = s.outbox ++ [.point sch x (Config.crom sch x)])

/-- R54, R60: slots above 52, frames at or above MAXFRAMES, and CROM entries at or above `2^n` do not exist; the model
stops at them (log 11). -/
def Obligations.AddressesThatDoNotExist : Prop :=
  (∀ (s : State) (f k : Nat) (rest : List HostMove), s.inbox = .readSlot f k :: rest →
    (53 ≤ k ∨ ∃ m, s.params.maxBits = some m ∧ 1 + (m - 48) / 48 ≤ f) → step s = .fault .framememAddress) ∧
  (∀ (s : State) (sch : Scheme) (x : Nat) (rest : List HostMove), s.inbox = .readCrom sch x :: rest →
    2 ^ codeWordLength sch ≤ x → step s = .fault .cromAddress)

/-! ## Frames and invariants -/

/-- R106, R122, R161 (frame of INIT, MAP.BPSK, MAP.QPSK, MAP.QAM16, MAP.QAM64 and XLT): they store nothing, every slot
and every bit reads as before, and they write no register but FAULT and, for INIT, SCHEME and CFG_STATE. -/
def Obligations.CommandsOtherThanModStoreNothing : Prop :=
  ∀ (i : Instr) (s t : State), i ≠ .mod → exec i s = .next t →
    (∀ a : Nat, t.framemem.read a = s.framemem.read a) ∧ (∀ a : Nat, t.bit a = s.bit a) ∧
    t.outValid = s.outValid ∧ t.nframes = s.nframes ∧ t.tag = s.tag ∧ t.cfgStr = s.cfgStr ∧ t.bitlen = s.bitlen ∧
    t.params = s.params ∧ t.inbox = s.inbox ∧ t.draws = s.draws ∧
    (i ≠ .init → t.scheme = s.scheme ∧ t.cfgState = s.cfgState)

/-- R27, R28, R29, R55, R57: the invariant of the machine (`State.Inv`) is kept by every step: both memories stay in
canonical form and within their address spaces; while OUT_VALID is 1 the block is READY, TAG is SCHEME, NFRAMES is in
1..MAXFRAMES, and every frame below NFRAMES is complete, frame 0 with BPSK points, the others with points of TAG's
scheme; CONFIG_ERROR goes with F_CONFIG; BITLEN fits its register. -/
def Obligations.StepKeepsTheInvariant : Prop :=
  ∀ s t : State, s.Inv → step s = .next t → t.Inv

/-- The invariant holds in the state after reset. -/
def Obligations.ResetStateMeetsTheInvariant : Prop := State.reset.Inv
end

