-- ==== Sys2Proof/Laws/Memory.lean ====
section
/-! SUPPORT. The laws of memories: what each operation makes of a read, and that each keeps the canonical form. -/

namespace Sys2Proof.Machine.Memory

variable {α : Type}

@[simp] theorem read_nil (a : Nat) : read ([] : Memory α) a = none := rfl

theorem read_cons (c : Nat × α) (m : Memory α) (a : Nat) :
    read (c :: m) a = if c.1 = a then some c.2 else read m a := rfl

theorem wf_nil : wf ([] : Memory α) := List.Pairwise.nil

/-- A cell that is read is listed. -/
theorem mem_of_read {m : Memory α} {a : Nat} {v : α} (h : read m a = some v) : (a, v) ∈ m := by
  induction m with
  | nil => simp at h
  | cons c m ih =>
    rw [read_cons] at h
    split at h
    · rename_i hc
      obtain ⟨k, w⟩ := c
      simp_all
    · exact List.mem_cons_of_mem _ (ih h)

/-- In canonical form a cell that is listed is read. -/
theorem read_of_mem {m : Memory α} (hm : wf m) {a : Nat} {v : α} (h : (a, v) ∈ m) : read m a = some v := by
  induction m with
  | nil => simp at h
  | cons c m ih =>
    obtain ⟨h1, h2⟩ := List.pairwise_cons.mp hm
    rw [read_cons]
    rcases List.mem_cons.mp h with rfl | h'
    · simp
    · have := h1 _ h'
      rw [if_neg (by simp at this; omega), ih h2 h']

/-- An address that no cell has reads as nothing. -/
theorem read_none_of_forall_ne {m : Memory α} {a : Nat} (h : ∀ c ∈ m, c.1 ≠ a) : read m a = none := by
  cases hr : read m a with
  | none => rfl
  | some v => exact absurd rfl (h _ (mem_of_read hr))

/-- Two canonical memories with the same reads are the same data. -/
theorem ext_read {m n : Memory α} (hm : wf m) (hn : wf n) (h : ∀ a, read m a = read n a) : m = n := by
  induction m generalizing n with
  | nil =>
    cases n with
    | nil => rfl
    | cons d n => have := h d.1; simp [read_cons] at this
  | cons c m ih =>
    cases n with
    | nil => have := h c.1; simp [read_cons] at this
    | cons d n =>
      obtain ⟨c1, c2⟩ := List.pairwise_cons.mp hm
      obtain ⟨d1, d2⟩ := List.pairwise_cons.mp hn
      have key : c.1 = d.1 := by
        have hc : (c.1, c.2) ∈ d :: n := mem_of_read (by rw [← h, read_cons, if_pos rfl])
        have hd : (d.1, d.2) ∈ c :: m := mem_of_read (by rw [h, read_cons, if_pos rfl])
        rcases List.mem_cons.mp hc with hc | hc
        · exact congrArg Prod.fst hc
        · rcases List.mem_cons.mp hd with hd | hd
          · exact (congrArg Prod.fst hd).symm
          · have := d1 _ hc; have := c1 _ hd; simp at *; omega
      have val : c.2 = d.2 := by
        have := h c.1
        rw [read_cons, read_cons, if_pos rfl, if_pos key.symm] at this
        exact Option.some.inj this
      have tail : m = n := by
        refine ih c2 d2 fun a => ?_
        by_cases ha : c.1 = a
        · rw [read_none_of_forall_ne fun e he => by have := c1 e he; omega,
            read_none_of_forall_ne fun e he => by have := d1 e he; omega]
        · have := h a
          rwa [read_cons, read_cons, if_neg ha, if_neg (key ▸ ha)] at this
      rw [tail, Prod.ext key val]

/-! ## One cell written -/

theorem read_write (m : Memory α) (a : Nat) (v : α) (b : Nat) :
    read (write m a v) b = if a = b then some v else read m b := by
  induction m with
  | nil => rfl
  | cons c m ih =>
    obtain ⟨k, w⟩ := c
    unfold write
    split
    · simp [read_cons]
    · split
      · subst_vars; simp only [read_cons]; split <;> rfl
      · simp only [read_cons, ih]; split <;> split <;> first | rfl | omega

theorem mem_write {m : Memory α} {a : Nat} {v : α} {c : Nat × α} (h : c ∈ write m a v) : c = (a, v) ∨ c ∈ m := by
  induction m with
  | nil => exact .inl (List.mem_singleton.mp h)
  | cons d m ih =>
    obtain ⟨k, w⟩ := d
    unfold write at h
    split at h
    · exact (List.mem_cons.mp h)
    · split at h
      · exact (List.mem_cons.mp h).imp_right (List.mem_cons_of_mem _)
      · rcases List.mem_cons.mp h with h | h
        · exact .inr (h ▸ List.mem_cons_self)
        · exact (ih h).imp_right (List.mem_cons_of_mem _)

theorem write_wf {m : Memory α} (hm : wf m) (a : Nat) (v : α) : wf (write m a v) := by
  induction m with
  | nil => exact List.pairwise_singleton _ _
  | cons d m ih =>
    obtain ⟨k, w⟩ := d
    obtain ⟨h1, h2⟩ := List.pairwise_cons.mp hm
    unfold write
    split
    · refine List.pairwise_cons.mpr ⟨fun c hc => ?_, hm⟩
      rcases List.mem_cons.mp hc with rfl | hc
      · assumption
      · have := h1 c hc; simp at *; omega
    · split
      · subst_vars
        exact List.pairwise_cons.mpr ⟨h1, h2⟩
      · refine List.pairwise_cons.mpr ⟨fun c hc => ?_, ih h2⟩
        rcases mem_write hc with rfl | hc
        · simp; omega
        · exact h1 c hc

/-! ## A run of cells written -/

theorem mem_run {a : Nat} {vs : List α} {c : Nat × α} (h : c ∈ run a vs) : a ≤ c.1 ∧ c.1 < a + vs.length := by
  induction vs generalizing a with
  | nil => simp [run] at h
  | cons v vs ih =>
    rcases List.mem_cons.mp h with rfl | h
    · simp
    · have := ih h; simp; omega

theorem run_wf (a : Nat) (vs : List α) : wf (run a vs) := by
  induction vs generalizing a with
  | nil => exact wf_nil
  | cons v vs ih =>
    exact List.pairwise_cons.mpr ⟨fun c hc => by have := mem_run hc; simp; omega, ih (a + 1)⟩

theorem read_run (a : Nat) (vs : List α) (b : Nat) : read (run a vs) b = if a ≤ b then vs[b - a]? else none := by
  induction vs generalizing a with
  | nil => simp [run]
  | cons v vs ih =>
    rw [run, read_cons, ih]
    by_cases h : a = b
    · subst h; simp
    · by_cases hb : a ≤ b
      · obtain ⟨j, rfl⟩ : ∃ j, b = a + 1 + j := ⟨b - a - 1, by omega⟩
        have h1 : a + 1 + j - a = j + 1 := by omega
        simp [h1, h, show a ≤ a + 1 + j by omega]
      · simp [h, hb, show ¬a + 1 ≤ b by omega]

theorem read_append (m n : Memory α) (a : Nat) : read (m ++ n) a = (read m a).or (read n a) := by
  induction m with
  | nil => simp
  | cons c m ih => rw [List.cons_append, read_cons, read_cons, ih]; split <;> simp

theorem read_filter (m : Memory α) (p : Nat → Bool) (a : Nat) :
    read (m.filter fun c => p c.1) a = if p a then read m a else none := by
  induction m with
  | nil => simp
  | cons c m ih =>
    rw [List.filter_cons]
    by_cases hc : p c.1 = true
    · rw [if_pos hc, read_cons, read_cons, ih]
      by_cases ha : c.1 = a
      · subst ha; simp [hc]
      · simp [ha]
    · rw [if_neg hc, ih, read_cons]
      by_cases ha : c.1 = a
      · subst ha; simp [hc]
      · simp [ha]

/-- A run written: inside it the new values, outside it the old content. -/
theorem read_writeRun (m : Memory α) (a : Nat) (vs : List α) (b : Nat) :
    read (writeRun m a vs) b = if a ≤ b ∧ b < a + vs.length then vs[b - a]? else read m b := by
  rw [writeRun, read_append, read_append, read_filter m (fun k => decide (k < a)),
    read_filter m (fun k => decide (a + vs.length ≤ k)), read_run]
  by_cases h1 : b < a
  · simp [h1, show ¬a ≤ b by omega, show ¬a + vs.length ≤ b by omega]
  · by_cases h2 : b < a + vs.length
    · simp [h1, h2, show a ≤ b by omega, show ¬a + vs.length ≤ b by omega]
    · simp [h1, h2, show a + vs.length ≤ b by omega, show vs.length ≤ b - a by omega]

theorem mem_writeRun {m : Memory α} {a : Nat} {vs : List α} {c : Nat × α} (h : c ∈ writeRun m a vs) :
    (a ≤ c.1 ∧ c.1 < a + vs.length) ∨ c ∈ m := by
  rw [writeRun, List.mem_append, List.mem_append] at h
  rcases h with (h | h) | h
  · exact .inr (List.mem_filter.mp h).1
  · exact .inl (mem_run h)
  · exact .inr (List.mem_filter.mp h).1

theorem writeRun_wf {m : Memory α} (hm : wf m) (a : Nat) (vs : List α) : wf (writeRun m a vs) := by
  refine List.pairwise_append.mpr ⟨List.pairwise_append.mpr ⟨hm.filter _, run_wf a vs, fun c hc d hd => ?_⟩,
    hm.filter _, fun c hc d hd => ?_⟩
  · have := (List.mem_filter.mp hc).2
    have := mem_run hd
    simp at *; omega
  · have hd := (List.mem_filter.mp hd).2
    rcases List.mem_append.mp hc with hc | hc
    · have := (List.mem_filter.mp hc).2
      simp at *; omega
    · have := mem_run hc
      simp at *; omega

/-- A run written at once is the run written cell by cell, in any canonical memory. -/
theorem writeRun_cons {m : Memory α} (hm : wf m) (a : Nat) (v : α) (vs : List α) :
    writeRun m a (v :: vs) = writeRun (write m a v) (a + 1) vs := by
  refine ext_read (writeRun_wf hm _ _) (writeRun_wf (write_wf hm _ _) _ _) fun b => ?_
  rw [read_writeRun, read_writeRun, read_write]
  by_cases h : a = b
  · subst h; simp
  · by_cases hb : a + 1 ≤ b
    · obtain ⟨j, rfl⟩ : ∃ j, b = a + 1 + j := ⟨b - (a + 1), by omega⟩
      have h1 : a + 1 + j - a = j + 1 := by omega
      simp only [h1, List.length_cons, List.getElem?_cons_succ, Nat.add_sub_cancel_left]
      by_cases hj : j < vs.length
      · rw [if_pos (by omega), if_pos (by omega)]
      · rw [if_neg (by omega), if_neg (by omega), if_neg (by omega)]
    · rw [if_neg (by omega), if_neg (by omega), if_neg h]

/-! ## Reset -/

theorem reset_wf : wf State.reset.bitmem ∧ wf State.reset.framemem := ⟨wf_nil, wf_nil⟩

end Sys2Proof.Machine.Memory
end

