-- ==== Sys2Proof/Laws/Operands.lean ====
section
/-! SUPPORT. Sequences, groups, bit groups and slot words: what each operand form is, element by element. -/

namespace Sys2Proof.Machine

/-! ## Sequences -/

section
variable {α : Type}

theorem sub_length {l : List α} {a m : Nat} (h : a + m ≤ l.length) : (sub l a m).length = m := by
  simp [sub]; omega

theorem getElem?_sub (l : List α) (a m j : Nat) : (sub l a m)[j]? = if j < m then l[a + j]? else none := by
  simp [sub, List.getElem?_take]

@[simp] theorem groups_length (n : Nat) (l : List α) : (groups n l).length = l.length / n := by simp [groups]

theorem getElem?_groups (n : Nat) (l : List α) (q : Nat) :
    (groups n l)[q]? = if q < l.length / n then some (sub l (q * n) n) else none := by
  rw [groups, List.getElem?_map]
  by_cases h : q < l.length / n
  · simp [h]
  · rw [if_neg h, List.getElem?_eq_none (by simpa using h), Option.map_none]

/-- Every group is complete (R150). -/
theorem length_of_mem_groups {n : Nat} {l g : List α} (h : g ∈ groups n l) : g.length = n := by
  obtain ⟨q, hq, rfl⟩ := List.mem_map.mp h
  refine sub_length ?_
  have : q + 1 ≤ l.length / n := by simpa using hq
  calc q * n + n = (q + 1) * n := by ring
    _ ≤ l.length / n * n := Nat.mul_le_mul_right n this
    _ ≤ l.length := Nat.div_mul_le_self _ _

end

/-! ## Reads of BITMEM -/

@[simp] theorem memRead_length (s : State) (a m : Nat) : (s.memRead a m).length = m := by simp [State.memRead]

theorem getElem?_memRead (s : State) (a m j : Nat) :
    (s.memRead a m)[j]? = if j < m then some (s.bit (a + j)) else none := by
  rw [State.memRead, List.getElem?_map]
  by_cases h : j < m
  · simp [h]
  · rw [if_neg h, List.getElem?_eq_none (by simpa using h), Option.map_none]

/-- A part of a run that was read is the run that would be read there. -/
theorem sub_memRead (s : State) {a m b k : Nat} (h : b + k ≤ m) : sub (s.memRead a m) b k = s.memRead (a + b) k := by
  refine List.ext_getElem? fun j => ?_
  rw [getElem?_sub, getElem?_memRead, getElem?_memRead]
  split
  · rw [if_pos (by omega), Nat.add_assoc]
  · rfl

/-- What is read depends on the bits of the run only. -/
theorem memRead_congr {s t : State} {a m : Nat} (h : ∀ j < m, s.bit (a + j) = t.bit (a + j)) :
    s.memRead a m = t.memRead a m :=
  List.map_congr_left fun j hj => h j (List.mem_range.mp hj)

/-! ## Bit groups -/

theorem groupIndex_lt (g : Bits) : groupIndex g < 2 ^ g.length := by
  induction g with
  | nil => simp [groupIndex]
  | cons b g ih =>
    rw [groupIndex, List.length_cons, Nat.pow_succ]
    cases b <;> simp <;> omega

/-- Groups of one length with the same index are the same group. -/
theorem groupIndex_inj {g h : Bits} (hl : g.length = h.length) (hi : groupIndex g = groupIndex h) : g = h := by
  induction g generalizing h with
  | nil => simpa using hl.symm
  | cons b g ih =>
    cases h with
    | nil => simp at hl
    | cons c h =>
      have hl' : g.length = h.length := by simpa using hl
      have hg := groupIndex_lt g
      have hh := groupIndex_lt h
      rw [groupIndex, groupIndex, hl'] at hi
      rw [hl'] at hg
      cases b <;> cases c <;> simp at hi <;> first | omega | rw [ih hl' (by omega)]

theorem codeWordLength_pos (s : Scheme) : 0 < codeWordLength s := by cases s <;> decide

theorem codeWordLength_le (s : Scheme) : codeWordLength s ≤ 6 := by cases s <;> decide

theorem ofCode_code (s : Scheme) : Scheme.ofCode s.code = s := by cases s <;> decide

theorem code_ofCode (c : BitVec 2) : (Scheme.ofCode c).code = c := by revert c; decide

/-! ## Point references and slot words -/

theorem groupIndex_lt_of_length {s : Scheme} {g : Bits} (h : g.length = codeWordLength s) :
    groupIndex g < 2 ^ codeWordLength s := h ▸ groupIndex_lt g

theorem toNat_mapPoint {s : Scheme} {g : Bits} (h : g.length = codeWordLength s) :
    (mapPoint s g).toNat = 64 * s.code.toNat + groupIndex g := by
  have h1 := groupIndex_lt_of_length h
  have h2 : 2 ^ codeWordLength s ≤ 2 ^ 6 := Nat.pow_le_pow_right (by decide) (codeWordLength_le s)
  have h3 : groupIndex g < 2 ^ 6 := by omega
  rw [mapPoint, BitVec.toNat_append, BitVec.toNat_ofNat, Nat.mod_eq_of_lt h3, Nat.shiftLeft_eq,
    ← Nat.shiftLeft_eq, ← Nat.shiftLeft_add_eq_or_of_lt h3, Nat.shiftLeft_eq]
  ring

theorem toNat_occupiedSlot (r : PointRef) : (occupiedSlot r).toNat = 256 + r.toNat := by
  rw [occupiedSlot, BitVec.toNat_append, ← Nat.shiftLeft_add_eq_or_of_lt r.isLt]
  rfl

theorem slotOcc_occupiedSlot (r : PointRef) : slotOcc (occupiedSlot r) = true := by
  revert r; decide

theorem slotSch_occupiedSlot (s : Scheme) (g : Bits) : slotSch (occupiedSlot (mapPoint s g)) = s := by
  have h : (occupiedSlot (mapPoint s g)).extractLsb' 6 2 = s.code := by
    unfold occupiedSlot mapPoint
    generalize BitVec.ofNat 6 (groupIndex g) = x
    cases s <;> revert x <;> decide
  rw [slotSch, h, ofCode_code]

theorem slotIdx_occupiedSlot (s : Scheme) {g : Bits} (h : g.length ≤ 6) :
    slotIdx (occupiedSlot (mapPoint s g)) = groupIndex g := by
  have h' : (occupiedSlot (mapPoint s g)).extractLsb' 0 6 = BitVec.ofNat 6 (groupIndex g) := by
    unfold occupiedSlot mapPoint
    generalize BitVec.ofNat 6 (groupIndex g) = x
    cases s <;> revert x <;> decide
  have h1 := groupIndex_lt g
  have h2 : 2 ^ g.length ≤ 2 ^ 6 := Nat.pow_le_pow_right (by decide) h
  rw [slotIdx, h', BitVec.toNat_ofNat, Nat.mod_eq_of_lt (by omega)]

end Sys2Proof.Machine
end

