-- ==== Sys2Proof/Laws/State.lean ====
section
/-! SUPPORT. One lemma for each field of State and each update of it, true by rfl. -/

namespace Sys2Proof.Machine

variable (s : State)

/-! ## deliver -/

@[simp] theorem deliver_params (o : Output) : (deliver o s).params = s.params := rfl
@[simp] theorem deliver_cfgStr (o : Output) : (deliver o s).cfgStr = s.cfgStr := rfl
@[simp] theorem deliver_bitlen (o : Output) : (deliver o s).bitlen = s.bitlen := rfl
@[simp] theorem deliver_cfgState (o : Output) : (deliver o s).cfgState = s.cfgState := rfl
@[simp] theorem deliver_scheme (o : Output) : (deliver o s).scheme = s.scheme := rfl
@[simp] theorem deliver_fault (o : Output) : (deliver o s).fault = s.fault := rfl
@[simp] theorem deliver_outValid (o : Output) : (deliver o s).outValid = s.outValid := rfl
@[simp] theorem deliver_nframes (o : Output) : (deliver o s).nframes = s.nframes := rfl
@[simp] theorem deliver_tag (o : Output) : (deliver o s).tag = s.tag := rfl
@[simp] theorem deliver_bitmem (o : Output) : (deliver o s).bitmem = s.bitmem := rfl
@[simp] theorem deliver_framemem (o : Output) : (deliver o s).framemem = s.framemem := rfl
@[simp] theorem deliver_inbox (o : Output) : (deliver o s).inbox = s.inbox := rfl
@[simp] theorem deliver_outbox (o : Output) : (deliver o s).outbox = s.outbox ++ [o] := rfl
@[simp] theorem deliver_draws (o : Output) : (deliver o s).draws = s.draws := rfl

/-! ## respond -/

@[simp] theorem respond_params (st : Status) (d : BitVec 8) : (respond st d s).params = s.params := rfl
@[simp] theorem respond_cfgStr (st : Status) (d : BitVec 8) : (respond st d s).cfgStr = s.cfgStr := rfl
@[simp] theorem respond_bitlen (st : Status) (d : BitVec 8) : (respond st d s).bitlen = s.bitlen := rfl
@[simp] theorem respond_cfgState (st : Status) (d : BitVec 8) : (respond st d s).cfgState = s.cfgState := rfl
@[simp] theorem respond_scheme (st : Status) (d : BitVec 8) : (respond st d s).scheme = s.scheme := rfl
@[simp] theorem respond_fault (st : Status) (d : BitVec 8) : (respond st d s).fault = s.fault := rfl
@[simp] theorem respond_outValid (st : Status) (d : BitVec 8) : (respond st d s).outValid = s.outValid := rfl
@[simp] theorem respond_nframes (st : Status) (d : BitVec 8) : (respond st d s).nframes = s.nframes := rfl
@[simp] theorem respond_tag (st : Status) (d : BitVec 8) : (respond st d s).tag = s.tag := rfl
@[simp] theorem respond_bitmem (st : Status) (d : BitVec 8) : (respond st d s).bitmem = s.bitmem := rfl
@[simp] theorem respond_framemem (st : Status) (d : BitVec 8) : (respond st d s).framemem = s.framemem := rfl
@[simp] theorem respond_inbox (st : Status) (d : BitVec 8) : (respond st d s).inbox = s.inbox := rfl
@[simp] theorem respond_outbox (st : Status) (d : BitVec 8) : (respond st d s).outbox = s.outbox ++ [.response st d] := rfl
@[simp] theorem respond_draws (st : Status) (d : BitVec 8) : (respond st d s).draws = s.draws := rfl

/-! ## takeFault -/

@[simp] theorem takeFault_params (c : Cause) : (takeFault c s).params = s.params := rfl
@[simp] theorem takeFault_cfgStr (c : Cause) : (takeFault c s).cfgStr = s.cfgStr := rfl
@[simp] theorem takeFault_bitlen (c : Cause) : (takeFault c s).bitlen = s.bitlen := rfl
@[simp] theorem takeFault_cfgState (c : Cause) : (takeFault c s).cfgState = s.cfgState := rfl
@[simp] theorem takeFault_scheme (c : Cause) : (takeFault c s).scheme = s.scheme := rfl
@[simp] theorem takeFault_fault (c : Cause) : (takeFault c s).fault = setFault c s.fault := rfl
@[simp] theorem takeFault_outValid (c : Cause) : (takeFault c s).outValid = s.outValid := rfl
@[simp] theorem takeFault_nframes (c : Cause) : (takeFault c s).nframes = s.nframes := rfl
@[simp] theorem takeFault_tag (c : Cause) : (takeFault c s).tag = s.tag := rfl
@[simp] theorem takeFault_bitmem (c : Cause) : (takeFault c s).bitmem = s.bitmem := rfl
@[simp] theorem takeFault_framemem (c : Cause) : (takeFault c s).framemem = s.framemem := rfl
@[simp] theorem takeFault_inbox (c : Cause) : (takeFault c s).inbox = s.inbox := rfl
@[simp] theorem takeFault_outbox (c : Cause) : (takeFault c s).outbox = s.outbox ++ [.response (.fault c) 0] := rfl
@[simp] theorem takeFault_draws (c : Cause) : (takeFault c s).draws = s.draws := rfl

/-! ## draw -/

@[simp] theorem draw_params : (draw s).params = s.params := rfl
@[simp] theorem draw_cfgStr : (draw s).cfgStr = s.cfgStr := rfl
@[simp] theorem draw_bitlen : (draw s).bitlen = s.bitlen := rfl
@[simp] theorem draw_cfgState : (draw s).cfgState = s.cfgState := rfl
@[simp] theorem draw_scheme : (draw s).scheme = s.scheme := rfl
@[simp] theorem draw_fault : (draw s).fault = s.fault := rfl
@[simp] theorem draw_outValid : (draw s).outValid = s.outValid := rfl
@[simp] theorem draw_nframes : (draw s).nframes = s.nframes := rfl
@[simp] theorem draw_tag : (draw s).tag = s.tag := rfl
@[simp] theorem draw_bitmem : (draw s).bitmem = s.bitmem := rfl
@[simp] theorem draw_framemem : (draw s).framemem = s.framemem := rfl
@[simp] theorem draw_inbox : (draw s).inbox = s.inbox := rfl
@[simp] theorem draw_outbox : (draw s).outbox = s.outbox := rfl
@[simp] theorem draw_draws : (draw s).draws = s.draws + 1 := rfl

/-! ## accept -/

@[simp] theorem accept_params (rest : List HostMove) : (s.accept rest).params = s.params := rfl
@[simp] theorem accept_cfgStr (rest : List HostMove) : (s.accept rest).cfgStr = s.cfgStr := rfl
@[simp] theorem accept_bitlen (rest : List HostMove) : (s.accept rest).bitlen = s.bitlen := rfl
@[simp] theorem accept_cfgState (rest : List HostMove) : (s.accept rest).cfgState = s.cfgState := rfl
@[simp] theorem accept_scheme (rest : List HostMove) : (s.accept rest).scheme = s.scheme := rfl
@[simp] theorem accept_fault (rest : List HostMove) : (s.accept rest).fault = s.fault := rfl
@[simp] theorem accept_outValid (rest : List HostMove) : (s.accept rest).outValid = s.outValid := rfl
@[simp] theorem accept_nframes (rest : List HostMove) : (s.accept rest).nframes = s.nframes := rfl
@[simp] theorem accept_tag (rest : List HostMove) : (s.accept rest).tag = s.tag := rfl
@[simp] theorem accept_bitmem (rest : List HostMove) : (s.accept rest).bitmem = s.bitmem := rfl
@[simp] theorem accept_framemem (rest : List HostMove) : (s.accept rest).framemem = s.framemem := rfl
@[simp] theorem accept_inbox (rest : List HostMove) : (s.accept rest).inbox = rest := rfl
@[simp] theorem accept_outbox (rest : List HostMove) : (s.accept rest).outbox = s.outbox := rfl
@[simp] theorem accept_draws (rest : List HostMove) : (s.accept rest).draws = s.draws := rfl

/-! ## resetBlock -/

@[simp] theorem resetBlock_params : (resetBlock s).params = s.params := rfl
@[simp] theorem resetBlock_cfgStr : (resetBlock s).cfgStr = s.cfgStr := rfl
@[simp] theorem resetBlock_bitlen : (resetBlock s).bitlen = s.bitlen := rfl
@[simp] theorem resetBlock_cfgState : (resetBlock s).cfgState = .unconfigured := rfl
@[simp] theorem resetBlock_scheme : (resetBlock s).scheme = Config.freeScheme s.draws := rfl
@[simp] theorem resetBlock_fault : (resetBlock s).fault = 0 := rfl
@[simp] theorem resetBlock_outValid : (resetBlock s).outValid = false := rfl
@[simp] theorem resetBlock_nframes : (resetBlock s).nframes = freeNframes s.params s.draws := rfl
@[simp] theorem resetBlock_tag : (resetBlock s).tag = Config.freeTag s.draws := rfl
@[simp] theorem resetBlock_bitmem : (resetBlock s).bitmem = s.bitmem := rfl
@[simp] theorem resetBlock_framemem : (resetBlock s).framemem = [] := rfl
@[simp] theorem resetBlock_inbox : (resetBlock s).inbox = s.inbox := rfl
@[simp] theorem resetBlock_outbox : (resetBlock s).outbox = s.outbox := rfl
@[simp] theorem resetBlock_draws : (resetBlock s).draws = s.draws + 1 := rfl

/-! ## modulate -/

@[simp] theorem modulate_params : (modulate s).params = s.params := rfl
@[simp] theorem modulate_cfgStr : (modulate s).cfgStr = s.cfgStr := rfl
@[simp] theorem modulate_bitlen : (modulate s).bitlen = s.bitlen := rfl
@[simp] theorem modulate_cfgState : (modulate s).cfgState = s.cfgState := rfl
@[simp] theorem modulate_scheme : (modulate s).scheme = s.scheme := rfl
@[simp] theorem modulate_fault : (modulate s).fault = s.fault := rfl
@[simp] theorem modulate_outValid : (modulate s).outValid = true := rfl
@[simp] theorem modulate_nframes : (modulate s).nframes = 1 + payloadFrameCount s.scheme s.bitlen := rfl
@[simp] theorem modulate_tag : (modulate s).tag = s.scheme := rfl
@[simp] theorem modulate_bitmem : (modulate s).bitmem = s.bitmem := rfl
@[simp] theorem modulate_framemem : (modulate s).framemem = writeFrames s.framemem 0 (outputFrames s.scheme (s.memRead 0 s.bitlen)) := rfl
@[simp] theorem modulate_inbox : (modulate s).inbox = s.inbox := rfl
@[simp] theorem modulate_outbox : (modulate s).outbox = s.outbox := rfl
@[simp] theorem modulate_draws : (modulate s).draws = s.draws := rfl

/-! ## withFetchWord -/

@[simp] theorem withFetchWord_inbox (n w : Nat) :
    (s.withFetchWord n w).inbox = .command (BitVec.ofNat 16 w) :: s.inbox := rfl

/-- Accepting the command that `withFetchWord` placed gives back the state. -/
@[simp] theorem withFetchWord_accept (n w : Nat) : (s.withFetchWord n w).accept s.inbox = s := rfl

end Sys2Proof.Machine
end

