-- ==== Sys2Proof/Laws/Translator.lean ====
section
/-! SUPPORT. What `translate` and its search for a position answer (spec/41_translator.md R120 to R127). -/

namespace Sys2Proof.Machine

/-- The translator is defined exactly on 0..47 (R120). -/
theorem translatePos_isSome (p : Nat) : (translatePos p).isSome = decide (p ≤ 47) := by
  unfold translatePos
  split_ifs <;> simp <;> omega

theorem translatePos_none_of_gt {p : Nat} (h : 47 < p) : translatePos p = none := by
  unfold translatePos
  split_ifs <;> first | omega | rfl

/-- On 0..47 it answers a slot index that is none of the five empty ones (R126). -/
theorem translatePos_of_le {p : Nat} (h : p ≤ 47) : ∃ k, translatePos p = some k ∧ k < frameSlots ∧ k ∉ emptySet := by
  unfold translatePos frameSlots emptySet
  split_ifs <;> exact ⟨_, rfl, by omega, by simp; omega⟩

theorem translatePos_lt {p k : Nat} (h : translatePos p = some k) : p ≤ 47 ∧ k < frameSlots ∧ k ∉ emptySet := by
  have hp : p ≤ 47 := by
    have := translatePos_isSome p
    rw [h] at this
    simpa using this.symm
  obtain ⟨k', h', hk⟩ := translatePos_of_le hp
  rw [h] at h'
  cases h'
  exact ⟨hp, hk⟩

/-- Every slot but the five empty ones is some position's (R126). -/
theorem positionOf_isSome : ∀ k < frameSlots, (positionOf k).isSome = decide (k ∉ emptySet) := by decide +kernel

/-- The position found for a slot is one that the translator sends there. -/
theorem translatePos_positionOf {p k : Nat} (h : positionOf k = some p) : p ≤ 47 ∧ translatePos p = some k := by
  have h1 := List.find?_some h
  have h2 : translatePos p = some k := by simpa using h1
  exact ⟨(translatePos_lt h2).1, h2⟩

/-- Only one position is sent to a slot. -/
theorem translatePos_inj {p q k : Nat} (hp : translatePos p = some k) (hq : translatePos q = some k) : p = q := by
  unfold translatePos at hp hq
  split_ifs at hp hq <;> simp_all <;> omega

theorem positionOf_translatePos {p k : Nat} (h : translatePos p = some k) : positionOf k = some p := by
  have hk := translatePos_lt h
  have hs := positionOf_isSome k hk.2.1
  rw [decide_eq_true hk.2.2] at hs
  obtain ⟨q, hq⟩ := Option.isSome_iff_exists.mp hs
  rw [hq, translatePos_inj (translatePos_positionOf hq).2 h]

/-- The five empty slots have no position. -/
theorem positionOf_empty {k : Nat} (h : k ∈ emptySet) : positionOf k = none := by
  cases hp : positionOf k with
  | none => rfl
  | some p => exact absurd h (translatePos_lt (translatePos_positionOf hp).2).2.2

end Sys2Proof.Machine
end

