-- ==== Sys2Proof/Laws/Assembler.lean ====
section
/-! SUPPORT. Frames slot by slot, the number of frames, and what a MOD leaves in FRAMEMEM (spec/42_assembler.md). -/

namespace Sys2Proof.Machine

/-! ## mkframe -/

@[simp] theorem mkframe_length (pts : List PointRef) : (mkframe pts).length = frameSlots := by simp [mkframe]

theorem getElem?_mkframe (pts : List PointRef) {k : Nat} (h : k < frameSlots) :
    (mkframe pts)[k]? = some (frameSlot pts k) := by
  simp [mkframe, h]

/-- The point at position `p` goes to slot `translate(p)` (R141). -/
theorem frameSlot_translatePos {pts : List PointRef} {p k : Nat} {r : PointRef} (hk : translatePos p = some k)
    (hr : pts[p]? = some r) : frameSlot pts k = occupiedSlot r := by
  simp [frameSlot, positionOf_translatePos hk, hr]

/-- The five other slots are empty (R141). -/
theorem frameSlot_empty (pts : List PointRef) {k : Nat} (h : k ∈ emptySet) : frameSlot pts k = emptySlot := by
  simp [frameSlot, positionOf_empty h]

/-- Every slot that is not one of the five holds a point of the sequence, if that has 48 points (R55). -/
theorem frameSlot_occupied {pts : List PointRef} (hl : pts.length = 48) {k : Nat} (hk : k < frameSlots)
    (he : k ∉ emptySet) : ∃ r ∈ pts, frameSlot pts k = occupiedSlot r := by
  have hs := positionOf_isSome k hk
  rw [decide_eq_true he] at hs
  obtain ⟨p, hp⟩ := Option.isSome_iff_exists.mp hs
  obtain ⟨hp47, hpk⟩ := translatePos_positionOf hp
  have hlt : p < pts.length := by omega
  exact ⟨pts[p], List.getElem_mem hlt, frameSlot_translatePos hpk (List.getElem?_eq_getElem hlt)⟩

/-! ## Payload framing -/

@[simp] theorem points_length (s : Scheme) (pl : Bits) : (points s pl).length = pl.length / codeWordLength s := by
  simp [points]

theorem getElem?_points (s : Scheme) (pl : Bits) {q : Nat} (h : q < pl.length / codeWordLength s) :
    (points s pl)[q]? = some (mapPoint s (sub pl (q * codeWordLength s) (codeWordLength s))) := by
  rw [points, List.getElem?_map, getElem?_groups, if_pos h, Option.map_some]

/-- `K = floor(floor(L / n) / 48) = floor(L / (48 * n))` (R147). -/
theorem payloadFrames_length (s : Scheme) (pl : Bits) :
    (payloadFrames s pl).length = pl.length / (48 * codeWordLength s) := by
  rw [payloadFrames, List.length_map, groups_length, points_length, dataSlots, Nat.div_div_eq_div_mul, Nat.mul_comm]

/-- Payload frame `f` is the frame of the 48 points from `48*f` on (R145). -/
theorem getElem?_payloadFrames (s : Scheme) (pl : Bits) {f : Nat} (h : f < pl.length / (48 * codeWordLength s)) :
    (payloadFrames s pl)[f]? = some (mkframe (sub (points s pl) (f * 48) 48)) := by
  have h' : f < (points s pl).length / dataSlots := by
    rwa [points_length, dataSlots, Nat.div_div_eq_div_mul, Nat.mul_comm]
  rw [payloadFrames, List.getElem?_map, getElem?_groups, if_pos h', Option.map_some, dataSlots]

/-- The point of payload frame `f` at position `i` (R148): group `48*f + i`, which lies inside the payload. -/
theorem point_of_payloadFrame (s : Scheme) (pl : Bits) {f i : Nat} (hf : f < pl.length / (48 * codeWordLength s))
    (hi : i < 48) :
    (sub (points s pl) (f * 48) 48)[i]? =
      some (mapPoint s (sub pl ((48 * f + i) * codeWordLength s) (codeWordLength s))) := by
  have hq : 48 * f + i < pl.length / codeWordLength s := by
    have h1 : f + 1 ≤ pl.length / codeWordLength s / 48 := by
      rwa [Nat.div_div_eq_div_mul, Nat.mul_comm]
    have h2 := Nat.div_mul_le_self (pl.length / codeWordLength s) 48
    omega
  rw [getElem?_sub, if_pos hi, Nat.mul_comm f 48, getElem?_points s pl hq]

/-- The bits of group `48*f + i` lie inside the payload (R151). -/
theorem group_inside {L n f i : Nat} (hf : f < L / (48 * n)) (hi : i < 48) :
    (48 * f + i) * n + n ≤ 48 * n * (L / (48 * n)) := by
  have h1 : f + 1 ≤ L / (48 * n) := hf
  calc (48 * f + i) * n + n = (48 * f + i + 1) * n := by ring
    _ ≤ (48 * (f + 1)) * n := Nat.mul_le_mul_right n (by omega)
    _ = 48 * n * (f + 1) := by ring
    _ ≤ _ := Nat.mul_le_mul_left _ h1

/-! ## The output model -/

theorem outputFrames_length (s : Scheme) (bits : Bits) :
    (outputFrames s bits).length = 1 + payloadFrameCount s bits.length := by
  rcases Nat.lt_or_ge bits.length 48 with h | h
  · simp [outputFrames, payloadFrames_length, payloadFrameCount, sub, Nat.sub_eq_zero_of_le h.le]
  · rw [outputFrames, List.length_cons, payloadFrames_length, sub_length (by omega), payloadFrameCount, Nat.add_comm]

/-- Every frame of the output has 53 slots. -/
theorem length_of_mem_outputFrames {s : Scheme} {bits : Bits} {F : List SlotWord} (h : F ∈ outputFrames s bits) :
    F.length = frameSlots := by
  rcases List.mem_cons.mp h with rfl | h
  · exact mkframe_length _
  · obtain ⟨_, _, rfl⟩ := List.mem_map.mp h
    exact mkframe_length _

/-! ## Frames written to FRAMEMEM -/

theorem slotAddr_inj {f g k l : Nat} (hk : k < frameSlots) (hl : l < frameSlots)
    (h : slotAddr f k = slotAddr g l) : f = g ∧ k = l := by
  unfold slotAddr frameSlots at *
  omega

/-- Every address is that of one slot. -/
theorem slotAddr_surj (a : Nat) : ∃ f k, k < frameSlots ∧ a = slotAddr f k :=
  ⟨a / 53, a % 53, Nat.mod_lt _ (by decide), (Nat.div_add_mod a 53).symm⟩

theorem slotAddr_div {f k : Nat} (h : k < frameSlots) : slotAddr f k / frameSlots = f := by
  unfold slotAddr frameSlots at *
  omega

/-- What a slot reads as after frames of 53 slots have been written from frame `f` on. -/
theorem read_writeFrames (m : Memory SlotWord) (f : Nat) (Fs : List (List SlotWord))
    (hF : ∀ F ∈ Fs, F.length = frameSlots) (g : Nat) {k : Nat} (hk : k < frameSlots) :
    (writeFrames m f Fs).read (slotAddr g k) =
      if f ≤ g ∧ g < f + Fs.length then (Fs[g - f]?).bind (·[k]?) else m.read (slotAddr g k) := by
  induction Fs generalizing m f with
  | nil => simp [writeFrames, show ¬(f ≤ g ∧ g < f) by omega]
  | cons F Fs ih =>
    have hF0 := hF F List.mem_cons_self
    rw [writeFrames, ih _ _ fun G hG => hF G (List.mem_cons_of_mem _ hG), Memory.read_writeRun, hF0]
    by_cases h : f + 1 ≤ g
    · obtain ⟨j, rfl⟩ : ∃ j, g = f + 1 + j := ⟨g - (f + 1), by omega⟩
      have h1 : f + 1 + j - f = j + 1 := by omega
      have h2 : ¬slotAddr (f + 1 + j) k < slotAddr f 0 + frameSlots := by unfold slotAddr frameSlots; omega
      have h3 : f ≤ f + 1 + j := by omega
      have h4 : f + 1 + j < f + (F :: Fs).length ↔ f + 1 + j < f + 1 + Fs.length := by simp; omega
      simp only [h1, h2, h3, h4, Nat.add_sub_cancel_left, List.getElem?_cons_succ, and_false, if_false, true_and,
        Nat.le_add_right]
    · rw [if_neg (by omega)]
      by_cases hg : g = f
      · subst hg
        have h1 : slotAddr g k - slotAddr g 0 = k := by unfold slotAddr; omega
        rw [if_pos (by unfold slotAddr; omega), if_pos (by simp), h1]
        simp
      · rw [if_neg (by unfold slotAddr frameSlots at *; omega), if_neg (by omega)]

theorem writeFrames_wf {m : Memory SlotWord} (hm : m.wf) (f : Nat) (Fs : List (List SlotWord)) :
    (writeFrames m f Fs).wf := by
  induction Fs generalizing m f with
  | nil => exact hm
  | cons F Fs ih => exact ih (Memory.writeRun_wf hm _ _) _

/-- A cell of FRAMEMEM after frames were written was there before or is one of those frames'. -/
theorem mem_writeFrames {m : Memory SlotWord} {f : Nat} {Fs : List (List SlotWord)}
    (hF : ∀ F ∈ Fs, F.length = frameSlots) {c : Nat × SlotWord} (h : c ∈ writeFrames m f Fs) :
    c.1 / frameSlots < f + Fs.length ∨ c ∈ m := by
  induction Fs generalizing m f with
  | nil => exact .inr h
  | cons F Fs ih =>
    rcases ih (fun G hG => hF G (List.mem_cons_of_mem _ hG)) h with h | h
    · exact .inl (by simp at *; omega)
    · refine (Memory.mem_writeRun h).imp_left fun h => ?_
      have hF0 := hF F List.mem_cons_self
      simp only [hF0, slotAddr, frameSlots, List.length_cons] at *
      omega

/-! ## MOD -/

/-- Slot `(f, k)` after a MOD: the frames of the output model, and beyond them what was there (R56, R166). -/
theorem slot_modulate (s : State) (f : Nat) {k : Nat} (hk : k < frameSlots) :
    (modulate s).slot f k =
      if f < 1 + payloadFrameCount s.scheme s.bitlen then
        ((outputFrames s.scheme (s.memRead 0 s.bitlen))[f]?).bind (·[k]?)
      else s.slot f k := by
  have h := read_writeFrames s.framemem 0 (outputFrames s.scheme (s.memRead 0 s.bitlen))
    (fun F hF => length_of_mem_outputFrames hF) f hk
  rw [outputFrames_length, memRead_length] at h
  simpa [State.slot] using h

/-- Frame 0 after a MOD is the header frame of the first 48 bits (R142, R152). -/
theorem slot_modulate_header (s : State) (h : 48 ≤ s.bitlen) {k : Nat} (hk : k < frameSlots) :
    (modulate s).slot 0 k = some (frameSlot ((s.memRead 0 48).map fun b => mapPoint .bpsk [b]) k) := by
  rw [slot_modulate s 0 hk, if_pos (by omega), outputFrames, List.getElem?_cons_zero, Option.bind_some, headerFrame,
    sub_memRead s (by omega), getElem?_mkframe _ hk]

/-- Frame `1 + f` after a MOD is the frame of the 48 points from `48*f` on (R145, R152). -/
theorem slot_modulate_payload (s : State) (h : 48 ≤ s.bitlen) {f : Nat}
    (hf : f < payloadFrameCount s.scheme s.bitlen) {k : Nat} (hk : k < frameSlots) :
    (modulate s).slot (1 + f) k =
      some (frameSlot (sub (points s.scheme (s.memRead 48 (s.bitlen - 48))) (f * 48) 48) k) := by
  have hpl : sub (s.memRead 0 s.bitlen) 48 ((s.memRead 0 s.bitlen).length - 48) = s.memRead 48 (s.bitlen - 48) := by
    rw [memRead_length, sub_memRead s (by omega)]
  rw [slot_modulate s _ hk, if_pos (by omega), outputFrames, hpl, Nat.add_comm, List.getElem?_cons_succ,
    getElem?_payloadFrames _ _ (by rwa [memRead_length]), Option.bind_some, getElem?_mkframe _ hk]

/-- The point at position `i` of payload frame `f` is that of the `n` bits at address `48 + (48*f + i)*n` (R151). -/
theorem point_of_payload (s : State) {f i : Nat} (hf : f < payloadFrameCount s.scheme s.bitlen) (hi : i < 48) :
    (sub (points s.scheme (s.memRead 48 (s.bitlen - 48))) (f * 48) 48)[i]? =
      some (mapPoint s.scheme
        (s.memRead (48 + (48 * f + i) * codeWordLength s.scheme) (codeWordLength s.scheme))) := by
  have hf' : f < (s.memRead 48 (s.bitlen - 48)).length / (48 * codeWordLength s.scheme) := by rwa [memRead_length]
  have hin := group_inside hf hi
  have hle := Nat.mul_div_le (s.bitlen - 48) (48 * codeWordLength s.scheme)
  rw [point_of_payloadFrame _ _ hf' hi, sub_memRead s (by omega)]

/-- Every frame below NFRAMES after a MOD is the frame of 48 points, each the point of a group of the right length: BPSK
in frame 0, SCHEME in the others (R142 to R145, R150). -/
theorem slot_modulate_points (s : State) (h : 48 ≤ s.bitlen) {f : Nat} (hf : f < (modulate s).nframes) :
    ∃ pts : List PointRef, pts.length = 48 ∧
      (∀ k, k < frameSlots → (modulate s).slot f k = some (frameSlot pts k)) ∧
      ∀ r ∈ pts, ∃ g : Bits, g.length = codeWordLength (if f = 0 then .bpsk else s.scheme) ∧
        r = mapPoint (if f = 0 then .bpsk else s.scheme) g := by
  rcases f with _ | f
  · refine ⟨_, by simp, fun k hk => slot_modulate_header s h hk, fun r hr => ?_⟩
    obtain ⟨b, -, rfl⟩ := List.mem_map.mp hr
    exact ⟨[b], rfl, rfl⟩
  · have hf' : f < payloadFrameCount s.scheme s.bitlen := by simp at hf; omega
    refine ⟨sub (points s.scheme (s.memRead 48 (s.bitlen - 48))) (f * 48) 48, sub_length ?_,
      fun k hk => Nat.add_comm f 1 ▸ slot_modulate_payload s h hf' hk, fun r hr => ?_⟩
    · rw [points_length, memRead_length]
      have h1 : f + 1 ≤ (s.bitlen - 48) / codeWordLength s.scheme / 48 := by
        rw [Nat.div_div_eq_div_mul, Nat.mul_comm]
        exact hf'
      have h2 := Nat.div_mul_le_self ((s.bitlen - 48) / codeWordLength s.scheme) 48
      omega
    · obtain ⟨g, hg, rfl⟩ := List.mem_map.mp (List.mem_of_mem_drop (List.mem_of_mem_take hr))
      exact ⟨g, length_of_mem_groups hg, rfl⟩

end Sys2Proof.Machine
end

