-- ==== Sys2Proof/Laws/Ops.lean ====
section
/-! SUPPORT. The parameter bounds read as inequalities, the bits of FAULT, and runs one step at a time. -/

namespace Sys2Proof.Machine

theorem below_iff (b : Option Nat) (n : Nat) : below b n = true ↔ ∀ m, b = some m → n < m := by
  cases b <;> simp [below]

theorem bitExists_iff (p : Params) (a : Nat) : bitExists p a = true ↔ ∀ m, p.maxBits = some m → a < m :=
  below_iff _ _

theorem bitlenLegal_iff (p : Params) (n : Nat) : bitlenLegal p n = true ↔ ∀ m, p.maxBits = some m → n ≤ m := by
  unfold bitlenLegal
  rw [below_iff]
  cases p.maxBits <;> simp

theorem frameExists_iff (p : Params) (f : Nat) :
    frameExists p f = true ↔ ∀ m, p.maxBits = some m → f < 1 + (m - 48) / 48 := by
  unfold frameExists maxFrames
  rw [below_iff]
  cases p.maxBits <;> simp

/-- BITLEN can hold every legal length (R23). -/
theorem bitlenHolds_of_le {p : Params} {v : Nat} (h : ∀ m, p.maxBits = some m → v ≤ m) : bitlenHolds p v = true := by
  unfold bitlenHolds
  rw [below_iff]
  intro m hm
  obtain ⟨m', hm', rfl⟩ := Option.map_eq_some_iff.mp hm
  exact lt_of_le_of_lt (h m' hm') Nat.lt_log2_self

/-- Setting a fault bit clears none (R26). -/
theorem getLsbD_setFault_of_set (c : Cause) {f : BitVec 5} {b : Nat} (h : f.getLsbD b = true) :
    (setFault c f).getLsbD b = true := by
  simp [setFault, h]

/-- The bit of the fault itself is set (R26). -/
theorem getLsbD_setFault_self (c : Cause) (f : BitVec 5) : (setFault c f).getLsbD c.faultBit = true := by
  cases c <;> revert f <;> decide

/-- A run whose first step answers a next state goes on from there. -/
theorem run_succ (M : Host.Core) (k : Nat) (s t : M.State) (h : M.step s = .next t) :
    M.run (k + 1) s = M.run k t := by
  rw [Host.Core.run, h]

end Sys2Proof.Machine
end

