-- ==== Sys2Proof/Laws/PerInstr.lean ====
section
/-! SUPPORT. Families of lemmas with one member for each instruction (LAWS.json). -/

namespace Sys2Proof.Laws

/-- The word of an instruction selects the instruction's row of the opcode map (R86). -/
def SelectsItsRow.Statement (i : Instr) : Prop := i.row.selectedBy (encode i) = true

/-- Format M words select the row of their scheme, whatever their group. -/
theorem encodeMap_and_mask (s : Scheme) (g : Bits) :
    encodeMap s g &&& 0xFE00#16 = BitVec.ofNat 16 (0x3000 + 512 * s.code.toNat) := by
  unfold encodeMap
  generalize BitVec.ofNat 3 g.length = l
  generalize BitVec.ofNat 6 (groupIndex g) = x
  cases s <;> revert l x <;> decide +kernel

theorem SelectsItsRow.init : SelectsItsRow.Statement .init := by
  unfold SelectsItsRow.Statement
  decide

theorem SelectsItsRow.mod : SelectsItsRow.Statement .mod := by
  unfold SelectsItsRow.Statement
  decide

theorem SelectsItsRow.mapBpsk (g : Bits) : SelectsItsRow.Statement (.mapBpsk g) :=
  beq_iff_eq.mpr (encodeMap_and_mask .bpsk g)

theorem SelectsItsRow.mapQpsk (g : Bits) : SelectsItsRow.Statement (.mapQpsk g) :=
  beq_iff_eq.mpr (encodeMap_and_mask .qpsk g)

theorem SelectsItsRow.mapQam16 (g : Bits) : SelectsItsRow.Statement (.mapQam16 g) :=
  beq_iff_eq.mpr (encodeMap_and_mask .qam16 g)

theorem SelectsItsRow.mapQam64 (g : Bits) : SelectsItsRow.Statement (.mapQam64 g) :=
  beq_iff_eq.mpr (encodeMap_and_mask .qam64 g)

theorem SelectsItsRow.xlt (pos : BitVec 6) : SelectsItsRow.Statement (.xlt pos) := by
  unfold SelectsItsRow.Statement
  revert pos
  decide

end Sys2Proof.Laws
end

