-- ==== Sys2Proof/Laws/Step.lean ====
section
/-! SUPPORT. What each shared operation and each meaning can answer, said once. -/

namespace Sys2Proof.Machine

/-- A command that runs only outside CONFIG_ERROR answers a fault there, and its own answer elsewhere. -/
theorem unlessConfigError_cases (s : State) (o : Host.Outcome State Fault Refusal) :
    (s.cfgState = .configError ∧ unlessConfigError s o = raise .config s) ∨
      (s.cfgState ≠ .configError ∧ unlessConfigError s o = o) := by
  unfold unlessConfigError
  split
  · exact .inl ⟨‹_›, rfl⟩
  · exact .inr ⟨‹_›, rfl⟩

/-- A MAP command ends with E_CONFIG, with E_GROUPLEN or with the point. -/
theorem mapCommand_cases (sch : Scheme) (g : Bits) (s : State) :
    (s.cfgState = .configError ∧ mapCommand sch g s = .next (takeFault .config s)) ∨
      (s.cfgState ≠ .configError ∧ g.length ≠ codeWordLength sch ∧
        mapCommand sch g s = .next (takeFault .groupLen s)) ∨
      (s.cfgState ≠ .configError ∧ g.length = codeWordLength sch ∧
        mapCommand sch g s = .next (respond .ok (mapPoint sch g) s)) := by
  rcases unlessConfigError_cases s
    (if g.length = codeWordLength sch then .next (respond .ok (mapPoint sch g) s) else raise .groupLen s) with
    ⟨h, he⟩ | ⟨h, he⟩
  · exact .inl ⟨h, he⟩
  · by_cases hl : g.length = codeWordLength sch
    · exact .inr (.inr ⟨h, hl, he.trans (if_pos hl)⟩)
    · exact .inr (.inl ⟨h, hl, he.trans (if_neg hl)⟩)

/-- XLT ends with E_CONFIG, with E_DOMAIN or with the slot index. -/
theorem execXlt_cases (pos : BitVec 6) (s : State) :
    (s.cfgState = .configError ∧ execXlt pos s = .next (takeFault .config s)) ∨
      (s.cfgState ≠ .configError ∧ 47 < pos.toNat ∧ execXlt pos s = .next (takeFault .domain s)) ∨
      (s.cfgState ≠ .configError ∧ pos.toNat ≤ 47 ∧ ∃ k, translatePos pos.toNat = some k ∧
        execXlt pos s = .next (respond .ok (BitVec.ofNat 8 k) s)) := by
  by_cases hc : s.cfgState = .configError
  · exact .inl ⟨hc, by simp [execXlt, unlessConfigError, hc, raise]⟩
  · rcases Nat.lt_or_ge 47 pos.toNat with hp | hp
    · exact .inr (.inl ⟨hc, hp, by simp [execXlt, unlessConfigError, hc, translatePos_none_of_gt hp, raise]⟩)
    · obtain ⟨k, hk, -⟩ := translatePos_of_le hp
      exact .inr (.inr ⟨hc, hp, k, hk, by simp [execXlt, unlessConfigError, hc, hk]⟩)

/-- INIT resolves the scheme, fails for good, or is turned away. -/
theorem execInit_cases (s : State) :
    (s.cfgState = .configError ∧ execInit s = .next (takeFault .config s)) ∨
      (s.cfgState = .ready ∧ execInit s = .next (takeFault .refused s)) ∨
      (s.cfgState = .unconfigured ∧ recognise s.cfgStr = none ∧
        execInit s = .next (takeFault .config { s with cfgState := .configError })) ∨
      (s.cfgState = .unconfigured ∧ ∃ sch, recognise s.cfgStr = some sch ∧
        execInit s = .next (respond .ok (sch.code.setWidth 8) { s with scheme := sch, cfgState := .ready })) := by
  unfold execInit
  split
  · exact .inl ⟨‹_›, rfl⟩
  · exact .inr (.inl ⟨‹_›, rfl⟩)
  · split
    · exact .inr (.inr (.inr ⟨‹_›, _, ‹_›, rfl⟩))
    · exact .inr (.inr (.inl ⟨‹_›, ‹_›, rfl⟩))

/-- MOD writes the output model, or is turned away before its first write. -/
theorem execMod_cases (s : State) :
    (s.cfgState = .configError ∧ execMod s = .next (takeFault .config s)) ∨
      (s.cfgState = .unconfigured ∧ execMod s = .next (takeFault .refused s)) ∨
      (s.cfgState = .ready ∧ s.bitlen < 48 ∧ execMod s = .next (takeFault .short s)) ∨
      (s.cfgState = .ready ∧ s.ModInput ∧ execMod s = .next (respond .ok 0 (modulate s))) ∨
      (s.cfgState = .ready ∧ 48 ≤ s.bitlen ∧ bitlenLegal s.params s.bitlen = false ∧
        execMod s = .refused .bitlenAboveMaxbits) := by
  unfold execMod
  split
  · exact .inl ⟨‹_›, rfl⟩
  · exact .inr (.inl ⟨‹_›, rfl⟩)
  · split
    · exact .inr (.inr (.inl ⟨‹_›, ‹_›, rfl⟩))
    · split
      · exact .inr (.inr (.inr (.inl ⟨‹_›, ⟨by omega, ‹_›⟩, rfl⟩)))
      · exact .inr (.inr (.inr (.inr ⟨‹_›, by omega, Bool.eq_false_iff.mpr ‹_›, rfl⟩)))

/-- A MOD in READY, with an input of at least 48 bits that BITMEM holds, writes its output model. -/
theorem execMod_next {s : State} (hr : s.cfgState = .ready) (h48 : 48 ≤ s.bitlen)
    (hm : ∀ m, s.params.maxBits = some m → s.bitlen ≤ m) : exec .mod s = .next (respond .ok 0 (modulate s)) := by
  simp only [exec, execMod, hr, if_neg (by omega : ¬s.bitlen < 48), (bitlenLegal_iff _ _).2 hm, if_true]

/-- Everything a command can do when it ends: take a fault (INIT's bad string changes CFG_STATE first), resolve the
scheme, write the output model, or answer without writing any state. -/
theorem exec_cases {i : Instr} {s t : State} (h : exec i s = .next t) :
    (∃ c, t = takeFault c s) ∨
      (i = .init ∧ s.cfgState = .unconfigured ∧ recognise s.cfgStr = none ∧
        t = takeFault .config { s with cfgState := .configError }) ∨
      (i = .init ∧ s.cfgState = .unconfigured ∧ ∃ sch, recognise s.cfgStr = some sch ∧
        t = respond .ok (sch.code.setWidth 8) { s with scheme := sch, cfgState := .ready }) ∨
      (i = .mod ∧ s.cfgState = .ready ∧ s.ModInput ∧ t = respond .ok 0 (modulate s)) ∨
      (i ≠ .init ∧ i ≠ .mod ∧ s.cfgState ≠ .configError ∧ ∃ d, t = respond .ok d s) := by
  have hmap : ∀ {sch g}, mapCommand sch g s = .next t →
      (∃ c, t = takeFault c s) ∨ (s.cfgState ≠ .configError ∧ ∃ d, t = respond .ok d s) := by
    intro sch g h
    rcases mapCommand_cases sch g s with ⟨_, he⟩ | ⟨_, _, he⟩ | ⟨hc, _, he⟩ <;> rw [he] at h <;> cases h
    · exact .inl ⟨_, rfl⟩
    · exact .inl ⟨_, rfl⟩
    · exact .inr ⟨hc, _, rfl⟩
  cases i with
  | init =>
    rcases execInit_cases s with ⟨_, he⟩ | ⟨_, he⟩ | ⟨h1, h2, he⟩ | ⟨h1, sch, h2, he⟩ <;> rw [exec, he] at h <;> cases h
    · exact .inl ⟨_, rfl⟩
    · exact .inl ⟨_, rfl⟩
    · exact .inr (.inl ⟨rfl, h1, h2, rfl⟩)
    · exact .inr (.inr (.inl ⟨rfl, h1, sch, h2, rfl⟩))
  | mod =>
    rcases execMod_cases s with ⟨_, he⟩ | ⟨_, he⟩ | ⟨_, _, he⟩ | ⟨h1, h2, he⟩ | ⟨_, _, _, he⟩ <;> rw [exec, he] at h <;>
      cases h
    · exact .inl ⟨_, rfl⟩
    · exact .inl ⟨_, rfl⟩
    · exact .inl ⟨_, rfl⟩
    · exact .inr (.inr (.inr (.inl ⟨rfl, h1, h2, rfl⟩)))
  | mapBpsk g => exact (hmap h).imp_right fun h => .inr (.inr (.inr ⟨by simp, by simp, h⟩))
  | mapQpsk g => exact (hmap h).imp_right fun h => .inr (.inr (.inr ⟨by simp, by simp, h⟩))
  | mapQam16 g => exact (hmap h).imp_right fun h => .inr (.inr (.inr ⟨by simp, by simp, h⟩))
  | mapQam64 g => exact (hmap h).imp_right fun h => .inr (.inr (.inr ⟨by simp, by simp, h⟩))
  | xlt pos =>
    rcases execXlt_cases pos s with ⟨_, he⟩ | ⟨_, _, he⟩ | ⟨hc, _, k, _, he⟩ <;> rw [exec, he] at h <;> cases h
    · exact .inl ⟨_, rfl⟩
    · exact .inl ⟨_, rfl⟩
    · exact .inr (.inr (.inr (.inr ⟨by simp, by simp, hc, _, rfl⟩)))

/-- A presented word is executed, or it is undecodable and takes the fault E_REFUSED. -/
theorem runWord_cases {w : CommandWord} {s t : State} (h : runWord w s = .next t) :
    (∃ i, decode w = .instr i ∧ exec i s = .next t) ∨
      (∃ why, decode w = .undecodable why ∧ t = takeFault .refused s) := by
  unfold runWord at h
  split at h
  · exact .inl ⟨_, ‹_›, h⟩
  · exact .inr ⟨_, ‹_›, by cases h; rfl⟩

/-- A step is idle, or it carries out the first pending move on the state without it. -/
theorem step_cases {s t : State} (h : step s = .next t) :
    (s.inbox = [] ∧ t = s) ∨ (∃ m rest, s.inbox = m :: rest ∧ runMove m (s.accept rest) = .next t) := by
  unfold step at h
  split at h
  · exact .inl ⟨‹_›, by cases h; rfl⟩
  · exact .inr ⟨_, _, ‹_›, h⟩

theorem step_of_inbox {s : State} {m : HostMove} {rest : List HostMove} (h : s.inbox = m :: rest) :
    step s = runMove m (s.accept rest) := by
  unfold step
  rw [h]

/-- A move of the host that is neither a command nor reset: what it can change when it answers a next state. -/
theorem runMove_cases {m : HostMove} {s t : State} (h : runMove m s = .next t) :
    (∃ w, m = .command w ∧ runWord w s = .next t) ∨
      (m = .reset ∧ t = resetBlock s) ∨
      (∃ r v, m = .writeRegister r v ∧
        ((r = .cfgStr ∧ v < 2 ^ 64 ∧ t = { s with cfgStr := BitVec.ofNat 64 v }) ∨
          (r = .bitlen ∧ bitlenHolds s.params v = true ∧ t = { s with bitlen := v }) ∨
          (r ≠ .cfgStr ∧ r ≠ .bitlen ∧ t = s))) ∨
      (∃ a b, m = .writeBit a b ∧ bitExists s.params a = true ∧ t = { s with bitmem := s.bitmem.write a b }) ∨
      ((∀ w, m ≠ .command w) ∧ m ≠ .reset ∧ (∀ r v, m ≠ .writeRegister r v) ∧ (∀ a b, m ≠ .writeBit a b) ∧
        ∃ o, t = draw (deliver o s) ∨ t = deliver o s) := by
  cases m with
  | command w => exact .inl ⟨w, rfl, h⟩
  | reset => exact .inr (.inl ⟨rfl, by cases h; rfl⟩)
  | writeRegister r v =>
    refine .inr (.inr (.inl ⟨r, v, rfl, ?_⟩))
    cases r <;> simp only [runMove, writeRegister] at h
    case cfgStr =>
      split at h <;> cases h
      exact .inl ⟨rfl, ‹_›, rfl⟩
    case bitlen =>
      split at h <;> cases h
      exact .inr (.inl ⟨rfl, ‹_›, rfl⟩)
    all_goals cases h; exact .inr (.inr ⟨by simp, by simp, rfl⟩)
  | writeBit a b =>
    simp only [runMove, writeBit] at h
    split at h <;> cases h
    exact .inr (.inr (.inr (.inl ⟨a, b, rfl, ‹_›, rfl⟩)))
  | readRegister r =>
    cases h
    exact .inr (.inr (.inr (.inr ⟨by simp, by simp, by simp, by simp, _, .inl rfl⟩)))
  | readSlot f k =>
    simp only [runMove, readSlot] at h
    split at h <;> cases h
    exact .inr (.inr (.inr (.inr ⟨by simp, by simp, by simp, by simp, _, .inl rfl⟩)))
  | readCrom sch x =>
    simp only [runMove, readCrom] at h
    split at h <;> cases h
    exact .inr (.inr (.inr (.inr ⟨by simp, by simp, by simp, by simp, _, .inr rfl⟩)))

end Sys2Proof.Machine
end

