-- ==== Sys2Proof/Tests/Slice0.lean ====
section
/-! SUPPORT. Tests, with expected results from spec/95_test_vectors.md or by hand from the rules, and, for each statement
with hypotheses, a witness that meets them. -/

namespace Sys2Proof.Machine.Tests

open Sys2Proof Sys2Proof.Machine

/-! ## Small states -/

/-- The state that an outcome goes on to. -/
def nextOf (o : Host.Outcome State Fault Refusal) : Option State :=
  match o with
  | .next t => some t
  | .fault _ => none
  | .refused _ => none

/-- The reset state with a configuration string. -/
def configured (w : ConfigWord) : State := { State.reset with cfgStr := w }

/-- A READY block with an input. -/
def ready (sch : Scheme) (bits : Bits) : State :=
  { State.reset with cfgState := .ready, scheme := sch, bitlen := bits.length, bitmem := Memory.run 0 bits }

/-- A block whose INIT has failed. -/
def failed : State := { State.reset with cfgState := .configError, fault := 0b00001 }

/-- An instance of MAXBITS = 48, READY. -/
def small : State := { ready .bpsk (List.replicate 48 false) with params := ⟨some 48⟩ }

/-- The host's next move is `m`. -/
def facing (m : HostMove) (s : State) : State := { s with inbox := [m] }

theorem exec_mod_small : exec .mod small = .next (respond .ok 0 (modulate small)) :=
  execMod_next rfl (by decide) (by intro m h; cases h; decide)

/-- READY states of unbounded MAXBITS. -/
theorem exec_mod_ready (sch : Scheme) {bits : Bits} (h : 48 ≤ bits.length) :
    exec .mod (ready sch bits) = .next (respond .ok 0 (modulate (ready sch bits))) :=
  execMod_next rfl h (by intro m h; cases h)

/-! ## WellFormed -/

/-- R83: a group of seven bits fits no MAP word; one check each. -/
theorem test_wellFormed_refuses_seven_bits :
    ¬(Instr.mapBpsk (List.replicate 7 true)).WellFormed ∧ ¬(Instr.mapQpsk (List.replicate 7 true)).WellFormed ∧
      ¬(Instr.mapQam16 (List.replicate 7 true)).WellFormed ∧ ¬(Instr.mapQam64 (List.replicate 7 true)).WellFormed := by
  decide

/-! ## Decode: words written out from R81 and R86 -/

/-- R81 format Z. -/
theorem test_decode_init : decode 0b0001000000000000#16 = .instr .init := by decide

/-- R81 format Z. -/
theorem test_decode_mod : decode 0b0010000000000000#16 = .instr .mod := by decide

/-- R94 `MAP.BPSK 1`. -/
theorem test_decode_mapBpsk : decode 0b0011000001000001#16 = .instr (.mapBpsk [true]) := by decide

/-- R89 worked example: the group of 0x3282 is "10". -/
theorem test_decode_mapQpsk : decode 0b0011001010000010#16 = .instr (.mapQpsk [true, false]) := by decide

/-- R94 `MAP.QAM16 1011`. -/
theorem test_decode_mapQam16 : decode 0b0011010100001011#16 = .instr (.mapQam16 [true, false, true, true]) := by decide

/-- R94 `MAP.QAM64 110101`. -/
theorem test_decode_mapQam64 :
    decode 0b0011011110110101#16 = .instr (.mapQam64 [true, true, false, true, false, true]) := by decide

/-- R94 `XLT 47`. -/
theorem test_decode_xlt : decode 0b0100000000101111#16 = .instr (.xlt 47) := by decide

/-- V1: the undecodable words, by the cases of R88. -/
theorem test_decode_undecodable :
    decode 0x0FFF#16 = .undecodable .reservedOpcode ∧ decode 0xF000#16 = .undecodable .reservedOpcode ∧
      decode 0x1800#16 = .undecodable .zFieldNotZero ∧ decode 0x2001#16 = .undecodable .zFieldNotZero ∧
      decode 0x3800#16 = .undecodable .mapBit11Set ∧ decode 0x33C0#16 = .undecodable .mapLengthSeven ∧
      decode 0x3284#16 = .undecodable .mapBitsAboveGroup ∧ decode 0x3060#16 = .undecodable .mapBitsAboveGroup ∧
      decode 0x4040#16 = .undecodable .xltFieldNotZero ∧ decode 0x4800#16 = .undecodable .xltFieldNotZero := by
  decide

/-- R80: the host's numbering; a number of more than 16 bits is no command word. -/
theorem test_decodeTableWord :
    decodeTableWord 16 0x402F = some (.xlt 47) ∧ decodeTableWord 16 0x31C0 = none ∧
      decodeTableWord 16 0x1402F = none := by decide

/-! ## Commands, one step each -/

/-- V4: "QAM-16" gives (OK, 0x02) and READY. -/
theorem test_init_qam16 :
    (nextOf (exec .init (configured 0x000036312D4D4151))).map (fun t => (t.outbox, t.cfgState, t.scheme, t.fault)) =
      some ([.response .ok 0x02], .ready, .qam16, 0) := by decide

/-- V4: "QAM-256" gives (E_CONFIG, 0x00), CONFIG_ERROR and F_CONFIG. -/
theorem test_init_qam256 :
    (nextOf (exec .init (configured 0x003635322D4D4151))).map (fun t => (t.outbox, t.cfgState, t.fault)) =
      some ([.response (.fault .config) 0], .configError, 0b00001) := by decide

/-- The bits of program P2 (QPSK, `BITLEN = 144`). -/
def bitsP2 : Bits :=
  List.replicate 48 false ++
    (List.replicate 12 [false, false, false, true, true, false, true, true]).flatten

theorem bitsP2_length : bitsP2.length = 144 := by decide +kernel

/-- P2: NFRAMES is 2; slot 4 of frame 1 is 140 and slot 6 is 141, the empty slot 5 consuming no point; slot 52 is 143. -/
theorem test_mod_qpsk :
    (nextOf (exec .mod (ready .qpsk bitsP2))).map
      (fun t => (t.nframes, t.slot 0 0, t.slot 1 4, t.slot 1 5, t.slot 1 6, t.slot 1 52, t.slot 2 0)) =
      some (2, some 0x100, some 0x140, some 0, some 0x141, some 0x143, none) := by decide +kernel

/-- V6, header ones at addresses 4, 5 and 43: the 101 words stand at slots 4, 6 and 48. -/
theorem test_mod_header :
    (nextOf (exec .mod (ready .qam64 (((List.replicate 48 false).set 4 true).set 5 true |>.set 43 true)))).map
      (fun t => (t.nframes, [3, 4, 5, 6, 7, 46, 47, 48, 49].map (t.slot 0 ·))) =
      some (1, [some 0x100, some 0x101, some 0, some 0x101, some 0x100, some 0x100, some 0, some 0x101, some 0x100]) := by
  decide +kernel

/-- R102: `len = 0` is E_GROUPLEN. -/
theorem test_mapBpsk_empty :
    (nextOf (exec (.mapBpsk []) State.reset)).map (fun t => (t.outbox, t.fault)) =
      some ([.response (.fault .groupLen) 0], 0b00010) := by decide

/-- V2: `MAP.BPSK 1` responds (OK, 0x01). -/
theorem test_mapBpsk_one :
    (nextOf (exec (.mapBpsk [true]) State.reset)).map (·.outbox) = some [.response .ok 0x01] := by decide

/-- V2: `MAP.QPSK 10` responds (OK, 0x42). -/
theorem test_mapQpsk :
    (nextOf (exec (.mapQpsk [true, false]) State.reset)).map (·.outbox) = some [.response .ok 0x42] := by decide

/-- V2: `MAP.QAM16 0111` responds (OK, 0x87). -/
theorem test_mapQam16 :
    (nextOf (exec (.mapQam16 [false, true, true, true]) State.reset)).map (·.outbox) = some [.response .ok 0x87] := by
  decide

/-- V2: `MAP.QAM64 100000` responds (OK, 0xE0). -/
theorem test_mapQam64 :
    (nextOf (exec (.mapQam64 [true, false, false, false, false, false]) State.reset)).map (·.outbox) =
      some [.response .ok 0xE0] := by decide

/-- V3: pos 24 responds (OK, 0x1B). -/
theorem test_xlt_24 : (nextOf (exec (.xlt 24) State.reset)).map (·.outbox) = some [.response .ok 0x1B] := by decide

/-- V3, V8: pos 48 in UNCONFIGURED is E_DOMAIN, and in CONFIG_ERROR it is E_CONFIG. -/
theorem test_xlt_48 :
    (nextOf (exec (.xlt 48) State.reset)).map (fun t => (t.outbox, t.fault)) =
      some ([.response (.fault .domain) 0], 0b00100) ∧
    (nextOf (exec (.xlt 48) failed)).map (·.outbox) = some [.response (.fault .config) 0] := by decide

/-- V8: an undecodable word in CONFIG_ERROR is E_REFUSED (P3, step 9: FAULT is 10001). -/
theorem test_step_undecodable :
    (nextOf (step (failed.withFetchWord 16 0))).map (fun t => (t.outbox, t.fault, t.inbox)) =
      some ([.response (.fault .refused) 0], 0b10001, []) := by decide

/-- P3, step 12: reset leaves CONFIG_ERROR and clears FAULT. -/
theorem test_step_reset :
    (nextOf (step (facing .reset failed))).map (fun t => (t.cfgState, t.fault, t.outValid)) =
      some (.unconfigured, 0, false) := by decide

/-- R30: a host write to FAULT has no effect; the read of FAULT gives its five bits as a number. -/
theorem test_host_registers :
    nextOf (step (facing (.writeRegister .fault 0) failed)) = some failed ∧
    (nextOf (step (facing (.readRegister .fault) failed))).map (·.outbox) = some [.register .fault 1] := by decide

/-! ## Witnesses -/

theorem witness_DecodeOfEncodeIsTheInstruction : (Instr.mapQam64 (List.replicate 6 true)).WellFormed := by decide

theorem witness_EncodeOfDecodeIsTheWord : ∃ i, decode 0x37BF#16 = .instr i := ⟨_, rfl⟩

theorem witness_DecodableWordSelectsOneRow :
    (∃ i, decode 0x403F#16 = .instr i) ∧ (⟨0x4000, 0xFFC0⟩ : OpcodeRow) ∈ opcodeRows ∧
      (⟨0x4000, 0xFFC0⟩ : OpcodeRow).selectedBy 0x403F = true := ⟨⟨_, rfl⟩, by decide, by decide⟩

theorem witness_WordsOfTheTextualCommands : ([] : Bits).length ≤ 6 ∧ (List.replicate 6 true).length ≤ 6 := by decide

theorem witness_UndecodableWordsAreRefused :
    (∃ why, decode 0x4040#16 = .undecodable why) ∧ (facing (.command 0x4040) failed).inbox = .command 0x4040 :: [] :=
  ⟨⟨_, rfl⟩, rfl⟩

theorem witness_StepRunsTheDecodedCommand :
    (∃ i, decode 0x1000#16 = .instr i) ∧ (facing (.command 0x1000) State.reset).inbox = .command 0x1000 :: [] :=
  ⟨⟨_, rfl⟩, rfl⟩

theorem witness_IdleBlockKeepsItsState : State.reset.inbox = [] := rfl

/-- At the bound: BITLEN = MAXBITS = 48. -/
theorem witness_EveryCommandEndsWithOneResponse :
    (facing (.command 0x2000) small).inbox = .command 0x2000 :: [] ∧
      ∀ m, (facing (.command 0x2000) small).params.maxBits = some m → (facing (.command 0x2000) small).bitlen ≤ m :=
  ⟨rfl, by intro m h; cases h; decide⟩

theorem witness_RunOfCommandsCompletesInAsManySteps :
    (facing (.command 0x2000) small).inbox = [0x2000#16].map HostMove.command ∧
      ∀ m, (facing (.command 0x2000) small).params.maxBits = some m → (facing (.command 0x2000) small).bitlen ≤ m :=
  ⟨rfl, by intro m h; cases h; decide⟩

/-- The three clauses: a READY or UNCONFIGURED block, a group of a wrong length, CONFIG_ERROR. -/
theorem witness_MapCommandsRespond :
    State.reset.cfgState ≠ .configError ∧ [true, false].length ≠ codeWordLength .bpsk ∧
      failed.cfgState = .configError := by decide

theorem witness_MapIsABijectionOntoTheReferences :
    (List.replicate 6 true).length = codeWordLength .qam64 ∧ ((0xFF : PointRef).toNat / 64 = Scheme.qam64.code.toNat) ∧
      (0xFF : PointRef).toNat % 64 < 2 ^ codeWordLength .qam64 := by decide

/-- S1: both ends of each range, and the first position outside. -/
theorem witness_TranslateIsTheSixRangeTable :
    [0, 4, 5, 17, 18, 23, 24, 29, 30, 42, 43, 47, 48].map translatePos =
      [some 0, some 4, some 6, some 18, some 20, some 25, some 27, some 32, some 34, some 46, some 48, some 52, none] := by
  decide

theorem witness_TranslateIncreasesOntoTheDataSubcarriers :
    translatePos 23 = some 25 ∧ translatePos 24 = some 27 ∧ 23 < 24 ∧ 52 ≤ 52 ∧ 47 ∈ [5, 19, 26, 33, 47] := by decide

/-- R127, both ends of each range. -/
theorem witness_PositionOfASlot :
    [0, 4, 6, 18, 20, 25, 27, 32, 34, 46, 48, 52].map positionOf =
      [some 0, some 4, some 5, some 17, some 18, some 23, some 24, some 29, some 30, some 42, some 43, some 47] := by
  decide

/-- The three clauses of XLT, at positions 47 and 48. -/
theorem witness_XltResponds :
    State.reset.cfgState ≠ .configError ∧ (47#6).toNat ≤ 47 ∧ 48 ≤ (48#6).toNat ∧ failed.cfgState = .configError := by
  decide

theorem witness_MkframePlacesThePoints :
    (List.replicate 48 (0x00 : PointRef)).length = 48 ∧ (List.replicate 48 (0x00 : PointRef))[47]? = some 0x00 ∧
      translatePos 47 = some 52 := by decide

theorem witness_NumberOfFrames :
    (List.replicate 96 false).length = 48 * codeWordLength .qpsk * 1 ∧ 48 ≤ (List.replicate 48 false).length := by decide

theorem witness_ModHeaderFrame :
    (∃ t, exec .mod small = .next t) ∧ small.cfgState = .ready ∧ 48 ≤ small.bitlen ∧ translatePos 47 = some 52 :=
  ⟨⟨_, exec_mod_small⟩, rfl, by decide, rfl⟩

theorem witness_ModPayloadFrames :
    (∃ t, exec .mod (ready .qpsk bitsP2) = .next t) ∧ (ready .qpsk bitsP2).cfgState = .ready ∧
      48 ≤ (ready .qpsk bitsP2).bitlen ∧ 0 < ((ready .qpsk bitsP2).bitlen - 48) / (48 * codeWordLength .qpsk) ∧
      translatePos 47 = some 52 := by
  have hl : (ready .qpsk bitsP2).bitlen = 144 := bitsP2_length
  refine ⟨⟨_, exec_mod_ready .qpsk (by rw [bitsP2_length]; decide)⟩, rfl, ?_, ?_, rfl⟩ <;> rw [hl] <;> decide

/-- An address of no frame of the output: slot 0 of frame 1. -/
theorem witness_ModWritesItsFramesOnly :
    (∃ t, exec .mod small = .next t ∧ t.nframes = 1) ∧ small.cfgState = .ready ∧ 48 ≤ small.bitlen ∧
      ∀ f k, f < 1 → k < 53 → 53 ≠ slotAddr f k :=
  ⟨⟨_, exec_mod_small, rfl⟩, rfl, by decide, fun f k hf hk => by unfold slotAddr frameSlots; omega⟩

/-- The four clauses of INIT. -/
theorem witness_InitResolvesTheScheme :
    ((configured 0x000034362D4D4151).cfgState = .unconfigured ∧ ((configured 0x000034362D4D4151).cfgStr, Scheme.qam64) ∈
      [(0x000000004B535042#64, Scheme.bpsk), (0x000000004B535051#64, Scheme.qpsk), (0x000036312D4D4151#64, Scheme.qam16),
        (0x000034362D4D4151#64, Scheme.qam64)]) ∧
    State.reset.cfgStr ∉ [0x000000004B535042#64, 0x000000004B535051#64, 0x000036312D4D4151#64, 0x000034362D4D4151#64] ∧
    small.cfgState = .ready ∧ failed.cfgState = .configError := by decide

/-- A string of exactly eight characters, the first eight of "QAM-16QAM-64" (V4). -/
theorem witness_ConfigurationStringsRecognised :
    8 ≤ ([0x51, 0x41, 0x4D, 0x2D, 0x31, 0x36, 0x51, 0x41] : List (BitVec 8)).length ∧
      ∀ c ∈ ([0x51, 0x41, 0x4D, 0x2D, 0x31, 0x36, 0x51, 0x41] : List (BitVec 8)), c ≠ 0 := by decide

theorem witness_ConfigWordLayout : 0 < 8 ∧ 7 < 8 := by decide

/-- The five clauses of MOD: BITLEN 47 and 48, and 49 above MAXBITS = 48. -/
theorem witness_ModChecksInOrderAndCompletes :
    failed.cfgState = .configError ∧ State.reset.cfgState = .unconfigured ∧
    ((ready .bpsk (List.replicate 47 false)).cfgState = .ready ∧ (ready .bpsk (List.replicate 47 false)).bitlen < 48) ∧
    (small.cfgState = .ready ∧ 48 ≤ small.bitlen ∧ ∀ m, small.params.maxBits = some m → small.bitlen ≤ m) ∧
    (({ small with bitlen := 49 } : State).cfgState = .ready ∧ 48 ≤ ({ small with bitlen := 49 } : State).bitlen ∧
      ∃ m, ({ small with bitlen := 49 } : State).params.maxBits = some m ∧ m < 49) :=
  ⟨rfl, rfl, ⟨rfl, by decide⟩, ⟨rfl, by decide, by intro m h; cases h; decide⟩, rfl, by decide, 48, rfl, by decide⟩

/-- Two inputs that differ in one dropped bit, and in what else a state holds. -/
theorem witness_ModOutputDependsOnItsInputOnly :
    ∃ s s' t t' : State, exec .mod s = .next t ∧ exec .mod s' = .next t' ∧ s.cfgState = .ready ∧ s'.cfgState = .ready ∧
      48 ≤ s.bitlen ∧ 48 ≤ s'.bitlen ∧ s.scheme = s'.scheme ∧
      (s.bitlen - 48) / (48 * codeWordLength s.scheme) = (s'.bitlen - 48) / (48 * codeWordLength s.scheme) ∧
      (∀ a, a < 48 + 48 * codeWordLength s.scheme * ((s.bitlen - 48) / (48 * codeWordLength s.scheme)) →
        s.bit a = s'.bit a) ∧ s.bit 48 ≠ s'.bit 48 := by
  refine ⟨ready .qpsk (List.replicate 48 true ++ [true]),
    { ready .qpsk (List.replicate 48 true ++ [false]) with fault := 0b00010 }, _, _,
    exec_mod_ready .qpsk (by decide), execMod_next rfl (by decide) (by intro m h; cases h), rfl, rfl, by decide,
    by decide, rfl, by decide, ?_, by decide⟩
  decide

theorem witness_StatusOfEveryCommand :
    (facing (.command 0x4030) failed).inbox = .command 0x4030 :: [] ∧
      ∃ t, step (facing (.command 0x4030) failed) = .next t := ⟨rfl, _, rfl⟩

theorem witness_FaultEntryChangesNothingElse :
    statusOf .init State.reset = .fault .config ∧ statusOf (.xlt 48) State.reset = .fault .domain := by decide

/-- A command, with its response, on a state with a fault bit set, and reset. -/
theorem witness_FaultBitsAreSticky :
    (∃ t st d, step (facing (.command 0x4000) failed) = .next t ∧
      (facing (.command 0x4000) failed).inbox.head? = some (.command 0x4000) ∧
      t.outbox = (facing (.command 0x4000) failed).outbox ++ [.response st d] ∧
      (facing (.command 0x4000) failed).inbox.head? ≠ some .reset ∧
      (facing (.command 0x4000) failed).fault.getLsbD 0 = true) ∧
    (∃ t, step (facing .reset failed) = .next t ∧ (facing .reset failed).inbox.head? = some .reset) :=
  ⟨⟨_, .fault .config, 0, rfl, rfl, rfl, by decide, by decide⟩, _, rfl, rfl⟩

/-- The three clauses. -/
theorem witness_OperandFaultsOfTheirCommandsOnly :
    (∃ t, exec (.mapQpsk [true]) State.reset = .next t ∧
      t.outbox = State.reset.outbox ++ [.response (.fault .groupLen) 0]) ∧
    (∃ t, exec (.xlt 48) State.reset = .next t ∧ t.outbox = State.reset.outbox ++ [.response (.fault .domain) 0]) ∧
    (∃ t, exec .mod (ready .bpsk []) = .next t ∧
      t.outbox = (ready .bpsk []).outbox ++ [.response (.fault .short) 0]) :=
  ⟨⟨_, rfl, rfl⟩, ⟨_, rfl, rfl⟩, _, rfl, rfl⟩

/-- The three clauses. -/
theorem witness_ConfigErrorIsAbsorbing :
    failed.cfgState = .configError ∧
    ((facing (.command 0x1000) failed).inbox = .command 0x1000 :: [] ∧ decode 0x1000#16 = .instr .init) ∧
    ((facing (.command 0x0000) failed).inbox = .command 0x0000 :: [] ∧
      decode 0x0000#16 = .undecodable .reservedOpcode) ∧
    (∃ t, step failed = .next t ∧ failed.inbox.head? ≠ some .reset) :=
  ⟨rfl, ⟨rfl, rfl⟩, ⟨rfl, rfl⟩, _, rfl, by decide⟩

/-- The three clauses: reset, INIT in UNCONFIGURED, INIT in CONFIG_ERROR. -/
theorem witness_TransitionsOfCfgState :
    ((∃ t, step (facing .reset failed) = .next t) ∧ (facing .reset failed).inbox.head? = some .reset) ∧
    ((∃ t, step (facing (.command 0x1000) (configured 0x000000004B535042)) = .next t) ∧
      (facing (.command 0x1000) (configured 0x000000004B535042)).inbox.head? = some (.command 0x1000) ∧
      (configured 0x000000004B535042).cfgState = .unconfigured) ∧
    (∃ t, step (facing (.command 0x1000) failed) = .next t) ∧
      (facing (.command 0x1000) failed).inbox.head? ≠ some .reset ∧ failed.cfgState ≠ .unconfigured :=
  ⟨⟨⟨_, rfl⟩, rfl⟩, ⟨⟨_, rfl⟩, rfl, rfl⟩, ⟨_, rfl⟩, by decide, by decide⟩

theorem witness_FaultingCommandLeavesOnlyItsBit :
    ∃ t u, exec (.xlt 48) State.reset = .next t ∧ statusOf (.xlt 48) State.reset = .fault .domain ∧
      ¬((Instr.xlt 48) = .init ∧ State.reset.cfgState = .unconfigured) ∧ exec (.xlt 47) State.reset = .next u :=
  ⟨_, _, rfl, rfl, by decide, rfl⟩

/-- The second clause's premise is met by reset alone: here it leaves CONFIG_ERROR and clears a bit. -/
theorem witness_ResetAndOnlyReset :
    (facing .reset failed).inbox = .reset :: [] ∧
      ∃ t, step (facing .reset failed) = .next t ∧ failed.cfgState = .configError ∧ t.cfgState ≠ .configError :=
  ⟨rfl, _, rfl, rfl, by decide⟩

theorem witness_EveryPieceOfStateHasOneWriter :
    (facing (.command 0x2000) small).inbox = .command 0x2000 :: [] ∧ (∃ t, step (facing (.command 0x2000) small) = .next t) ∧
    (facing (.writeBit 47 true) small).inbox = .writeBit 47 true :: [] ∧
      (∃ t, step (facing (.writeBit 47 true) small) = .next t) :=
  ⟨rfl, ⟨_, execMod_next (s := { small with inbox := [] }) rfl (by decide) (by intro m h; cases h; decide)⟩, rfl, _, rfl⟩

/-- The three clauses; BITLEN at the bound. -/
theorem witness_HostRegisterWrites :
    (facing (.writeRegister .cfgStr 0x4B535042) small).inbox = .writeRegister .cfgStr 0x4B535042 :: [] ∧
    0x4B535042 < 2 ^ 64 ∧ (∀ m, small.params.maxBits = some m → 48 ≤ m) ∧
    RegName.fault ≠ .cfgStr ∧ RegName.fault ≠ .bitlen :=
  ⟨rfl, by decide, by intro m h; cases h; decide, by decide, by decide⟩

/-- Both clauses, at addresses 47 and 48 of MAXBITS = 48. -/
theorem witness_HostBitWrites :
    (facing (.writeBit 47 true) small).inbox = .writeBit 47 true :: [] ∧ (∀ m, small.params.maxBits = some m → 47 < m) ∧
      (facing (.writeBit 48 true) small).inbox = .writeBit 48 true :: [] ∧ ∃ m, small.params.maxBits = some m ∧ m ≤ 48 :=
  ⟨rfl, by intro m h; cases h; decide, rfl, 48, rfl, by decide⟩

theorem witness_HostReadsHaveNoSideEffect :
    (facing (.readSlot 0 52) small).inbox = .readSlot 0 52 :: [] ∧ ∃ t, step (facing (.readSlot 0 52) small) = .next t :=
  ⟨rfl, _, rfl⟩

/-- A block with a valid output model: one frame of points of group "0". -/
def done : State :=
  { small with
    outValid := true
    nframes := 1
    framemem := Memory.run 0 (mkframe (List.replicate 48 0x00)) }

/-- The clauses: a register that always has a value, SCHEME, NFRAMES and TAG; a slot; an entry of CROM. -/
theorem witness_HostReadsDeliverTheContent :
    (facing (.readRegister .nframes) done).inbox = .readRegister .nframes :: [] ∧ done.cfgState = .ready ∧
    done.outValid = true ∧ 0 < done.nframes ∧ (∀ m, done.params.maxBits = some m → 0 < 1 + (m - 48) / 48) ∧
    done.slot 0 52 = some 0x100 ∧ 63 < 2 ^ codeWordLength .qam64 :=
  ⟨rfl, rfl, rfl, by decide, by intro m h; cases h; decide, by decide +kernel, by decide⟩

/-- Slot 53, frame 1 of MAXFRAMES = 1, and entry 2 of BPSK. -/
theorem witness_AddressesThatDoNotExist :
    (facing (.readSlot 0 53) small).inbox = .readSlot 0 53 :: [] ∧ 53 ≤ 53 ∧
    (∃ m, small.params.maxBits = some m ∧ 1 + (m - 48) / 48 ≤ 1) ∧
    (facing (.readCrom .bpsk 2) small).inbox = .readCrom .bpsk 2 :: [] ∧ 2 ^ codeWordLength .bpsk ≤ 2 :=
  ⟨rfl, by decide, ⟨48, rfl, by decide⟩, rfl, by decide⟩

theorem witness_CommandsOtherThanModStoreNothing :
    Instr.init ≠ .mod ∧ (∃ t, exec .init State.reset = .next t) ∧ Instr.xlt 0 ≠ .init ∧ Instr.xlt 0 ≠ .mod ∧
      ∃ t, exec (.xlt 0) State.reset = .next t := ⟨by decide, ⟨_, rfl⟩, by decide, by decide, _, rfl⟩

/-- Slot `k` of frame 0 of `done` is as R55 says. -/
theorem done_slot : ∀ k < frameSlots, done.slot 0 k = some (if k ∈ emptySet then emptySlot else 0x100) := by
  decide +kernel

/-- The invariant holds of a state with a valid output model, at a bounded MAXBITS. -/
theorem witness_StepKeepsTheInvariant : done.Inv ∧ ∃ t, step done = .next t := by
  refine ⟨⟨⟨by decide +kernel, by decide +kernel, by decide +kernel, by decide +kernel⟩,
    ⟨fun _ => rfl, fun _ => rfl, fun _ => by decide, fun _ => ⟨fun k hk => ?_, fun k hk he => ?_⟩, fun _ f h1 h2 => ?_⟩,
    ⟨by intro m h; cases h; decide, by decide, by intro h; cases h⟩⟩, _, rfl⟩
  · rw [done_slot k (by simp [emptySet] at hk; unfold frameSlots; omega), if_pos hk]
  · exact ⟨_, done_slot k hk, by rw [if_neg he]; decide, by rw [if_neg he]; decide, by rw [if_neg he]; decide⟩
  · change f < 1 at h2
    omega

end Sys2Proof.Machine.Tests
end

/-! # The state of the machine: the invariant, the faults, CFG_STATE, and the host's accesses

The proofs of the statements about spec/10_state.md. Each rests on the case lemmas `step_cases`, `runMove_cases`,
`runWord_cases` and `exec_cases`, which say once what a step can do. -/

namespace Sys2Proof.Machine

/-! ## The pending move -/

/-- A step with a pending move carries that move out. -/
theorem step_of_head? {s : State} {m : HostMove} (h : s.inbox.head? = some m) :
    step s = runMove m (s.accept s.inbox.tail) :=
  step_of_inbox (List.eq_cons_of_mem_head? h)

/-- A step is idle with no pending move, or carries out the pending move, named by `head?`. -/
theorem step_head?_cases {s t : State} (h : step s = .next t) :
    (s.inbox.head? = none ∧ t = s) ∨
      ∃ m, s.inbox.head? = some m ∧ runMove m (s.accept s.inbox.tail) = .next t := by
  rcases step_cases h with ⟨hnil, ht⟩ | ⟨m, rest, hm, hrun⟩
  · exact .inl ⟨by rw [hnil]; rfl, ht⟩
  · exact .inr ⟨m, by rw [hm]; rfl, by rwa [hm]⟩

/-! ## What stays the same -/

/-- `t` has the output model of `s`: the parameters, FRAMEMEM and every register that says what FRAMEMEM holds. -/
structure State.SameOutput (s t : State) : Prop where
  params : t.params = s.params
  cfgState : t.cfgState = s.cfgState
  scheme : t.scheme = s.scheme
  outValid : t.outValid = s.outValid
  nframes : t.nframes = s.nframes
  tag : t.tag = s.tag
  framemem : t.framemem = s.framemem

theorem sameOutput_accept (s : State) (rest : List HostMove) : s.SameOutput (s.accept rest) :=
  ⟨rfl, rfl, rfl, rfl, rfl, rfl, rfl⟩

theorem sameOutput_deliver (s : State) (o : Output) : s.SameOutput (deliver o s) := ⟨rfl, rfl, rfl, rfl, rfl, rfl, rfl⟩

theorem sameOutput_draw (s : State) : s.SameOutput (draw s) := ⟨rfl, rfl, rfl, rfl, rfl, rfl, rfl⟩

theorem sameOutput_takeFault (s : State) (c : Cause) : s.SameOutput (takeFault c s) :=
  ⟨rfl, rfl, rfl, rfl, rfl, rfl, rfl⟩

/-- A move of the host that is neither a command nor reset writes nothing of the block's own (R69, R214). -/
theorem runMove_sameOutput {m : HostMove} {s t : State} (h : runMove m s = .next t) (hc : ∀ w, m ≠ .command w)
    (hr : m ≠ .reset) : s.SameOutput t ∧ t.fault = s.fault := by
  rcases runMove_cases h with ⟨w, rfl, -⟩ | ⟨rfl, -⟩ | ⟨r, v, -, hw⟩ | ⟨a, b, -, -, rfl⟩ | ⟨-, -, -, -, o, rfl | rfl⟩
  · exact absurd rfl (hc w)
  · exact absurd rfl hr
  · rcases hw with ⟨-, -, rfl⟩ | ⟨-, -, rfl⟩ | ⟨-, -, rfl⟩ <;> exact ⟨⟨rfl, rfl, rfl, rfl, rfl, rfl, rfl⟩, rfl⟩
  · exact ⟨⟨rfl, rfl, rfl, rfl, rfl, rfl, rfl⟩, rfl⟩
  · exact ⟨⟨rfl, rfl, rfl, rfl, rfl, rfl, rfl⟩, rfl⟩
  · exact ⟨sameOutput_deliver s o, rfl⟩

/-! ## The invariant -/

/-- The completeness of a frame is about FRAMEMEM alone. -/
theorem frameComplete_congr {s t : State} (h : t.framemem = s.framemem) (f : Nat) (sch : Scheme) :
    t.FrameComplete f sch ↔ s.FrameComplete f sch := by
  simp only [State.FrameComplete, State.slot, h]

theorem memoryInv_congr {s t : State} (hp : t.params = s.params) (hb : t.bitmem = s.bitmem)
    (hf : t.framemem = s.framemem) (h : s.MemoryInv) : t.MemoryInv where
  bitmem_wf := hb ▸ h.bitmem_wf
  framemem_wf := hf ▸ h.framemem_wf
  bitmem_exists := by rw [hb, hp]; exact h.bitmem_exists
  framemem_exists := by rw [hf, hp]; exact h.framemem_exists

theorem State.SameOutput.outputInv {s t : State} (ho : s.SameOutput t) (h : s.OutputInv) : t.OutputInv := by
  obtain ⟨hp, hc, hs, hv, hn, ht, hf⟩ := ho
  refine ⟨?_, ?_, ?_, ?_, ?_⟩ <;> rw [hv]
  · exact hc ▸ h.ready
  · exact ht ▸ hs ▸ h.tag
  · exact hp ▸ hn ▸ h.nframes
  · exact fun hv => (frameComplete_congr hf 0 .bpsk).2 (h.header hv)
  · rw [hn, ht]
    exact fun hv f h1 hlt => (frameComplete_congr hf f s.tag).2 (h.payload hv f h1 hlt)

/-- While OUT_VALID is 0 nothing is claimed of the output model. -/
theorem outputInv_of_invalid {s : State} (hv : s.outValid = false) : s.OutputInv := by
  constructor <;> exact fun h => absurd (hv.symm.trans h) Bool.false_ne_true

/-- Outside READY there is no valid output. -/
theorem State.OutputInv.invalid_of_not_ready {s : State} (h : s.OutputInv) (hr : s.cfgState ≠ .ready) :
    s.outValid = false :=
  Bool.eq_false_iff.2 fun hv => hr (h.ready hv)

/-- A move that keeps the output model, BITMEM and BITLEN, and clears no bit of FAULT, keeps the invariant. -/
theorem State.SameOutput.inv {s t : State} (ho : s.SameOutput t) (hb : t.bitmem = s.bitmem) (hl : t.bitlen = s.bitlen)
    (hf : ∀ b, s.fault.getLsbD b = true → t.fault.getLsbD b = true) (h : s.Inv) : t.Inv where
  memory := memoryInv_congr ho.params hb ho.framemem h.memory
  output := ho.outputInv h.output
  registers := by
    obtain ⟨hmax, hlen, herr⟩ := h.registers
    refine ⟨?_, ?_, ?_⟩
    · rw [ho.params]; exact hmax
    · rw [ho.params, hl]; exact hlen
    · rw [ho.cfgState]; exact fun hc => hf _ (herr hc)

theorem inv_accept {s : State} (h : s.Inv) (rest : List HostMove) : (s.accept rest).Inv :=
  (sameOutput_accept s rest).inv rfl rfl (fun _ hb => hb) h

theorem inv_deliver {s : State} (h : s.Inv) (o : Output) : (deliver o s).Inv :=
  (sameOutput_deliver s o).inv rfl rfl (fun _ hb => hb) h

theorem inv_respond {s : State} (h : s.Inv) (st : Status) (d : BitVec 8) : (respond st d s).Inv := inv_deliver h _

theorem inv_draw {s : State} (h : s.Inv) : (draw s).Inv := (sameOutput_draw s).inv rfl rfl (fun _ hb => hb) h

theorem inv_takeFault {s : State} (h : s.Inv) (c : Cause) : (takeFault c s).Inv :=
  (sameOutput_takeFault s c).inv rfl rfl (fun _ hb => getLsbD_setFault_of_set c hb) h

/-- A reset leaves a valid output nowhere, and FRAMEMEM without content (R35). -/
theorem inv_resetBlock {s : State} (h : s.Inv) : (resetBlock s).Inv where
  memory := ⟨h.memory.bitmem_wf, Memory.wf_nil, h.memory.bitmem_exists, fun _ hc => nomatch hc⟩
  output := outputInv_of_invalid rfl
  registers := ⟨h.registers.maxBits, h.registers.bitlen, fun hc => nomatch hc⟩

/-! ### INIT -/

/-- INIT's success: outside READY there is no valid output to keep (R163). -/
theorem inv_initReady {s : State} (h : s.Inv) (hu : s.cfgState = .unconfigured) (sch : Scheme) (d : BitVec 8) :
    (respond .ok d { s with scheme := sch, cfgState := .ready }).Inv where
  memory := memoryInv_congr (s := s) rfl rfl rfl h.memory
  output := outputInv_of_invalid (h.output.invalid_of_not_ready (by simp [hu]))
  registers := ⟨h.registers.maxBits, h.registers.bitlen, fun hc => nomatch hc⟩

/-- INIT's failure sets F_CONFIG as it enters CONFIG_ERROR (R186). -/
theorem inv_initError {s : State} (h : s.Inv) (hu : s.cfgState = .unconfigured) :
    (takeFault .config { s with cfgState := .configError }).Inv where
  memory := memoryInv_congr (s := s) rfl rfl rfl h.memory
  output := outputInv_of_invalid (h.output.invalid_of_not_ready (by simp [hu]))
  registers := ⟨h.registers.maxBits, h.registers.bitlen, fun _ => getLsbD_setFault_self .config s.fault⟩

/-! ### MOD -/

/-- The slot word of a point mapped from a group of the right length holds a point of the scheme (R57, R100). -/
theorem holdsPoint_occupiedSlot {sch : Scheme} {g : Bits} (hg : g.length = codeWordLength sch) :
    HoldsPoint sch (occupiedSlot (mapPoint sch g)) := by
  refine ⟨slotOcc_occupiedSlot _, slotSch_occupiedSlot sch g, ?_⟩
  rw [slotIdx_occupiedSlot sch (hg ▸ codeWordLength_le sch)]
  exact groupIndex_lt_of_length hg

theorem lt_frameSlots_of_mem_emptySet : ∀ k ∈ emptySet, k < frameSlots := by decide

/-- After a MOD every frame below NFRAMES is complete, frame 0 with BPSK points, the others with points of SCHEME. -/
theorem frameComplete_modulate {s : State} (h48 : 48 ≤ s.bitlen) {f : Nat} (hf : f < (modulate s).nframes) :
    (modulate s).FrameComplete f (if f = 0 then .bpsk else s.scheme) := by
  obtain ⟨pts, hlen, hslot, hpts⟩ := slot_modulate_points s h48 hf
  refine ⟨fun k hk => ?_, fun k hk he => ?_⟩
  · rw [hslot k (lt_frameSlots_of_mem_emptySet k hk), frameSlot_empty pts hk]
  · obtain ⟨r, hr, hocc⟩ := frameSlot_occupied hlen hk he
    obtain ⟨g, hg, rfl⟩ := hpts r hr
    exact ⟨_, (hslot k hk).trans (congrArg some hocc), holdsPoint_occupiedSlot hg⟩

/-- Every frame that a MOD writes is below MAXFRAMES (R28). -/
theorem frameExists_of_lt_modulate_nframes {s : State} (h : s.ModInput) {f : Nat} (hf : f < (modulate s).nframes) :
    frameExists s.params f = true := by
  obtain ⟨-, hlegal⟩ := h
  rw [frameExists_iff]
  intro m hm
  have hle : s.bitlen ≤ m := (bitlenLegal_iff _ _).1 hlegal m hm
  calc f < 1 + payloadFrameCount s.scheme s.bitlen := hf
    _ ≤ 1 + (m - 48) / 48 := Nat.add_le_add_left (Nat.div_le_div (by omega)
        (Nat.le_mul_of_pos_right 48 (codeWordLength_pos s.scheme)) (by decide)) 1

theorem memoryInv_modulate {s : State} (h : s.MemoryInv) (hin : s.ModInput) : (modulate s).MemoryInv where
  bitmem_wf := h.bitmem_wf
  framemem_wf := writeFrames_wf h.framemem_wf _ _
  bitmem_exists := h.bitmem_exists
  framemem_exists := by
    intro c hc
    rcases mem_writeFrames (fun F hF => length_of_mem_outputFrames hF) hc with hnew | hold
    · rw [outputFrames_length, memRead_length, Nat.zero_add] at hnew
      exact frameExists_of_lt_modulate_nframes hin hnew
    · exact h.framemem_exists c hold

theorem outputInv_modulate {s : State} (hr : s.cfgState = .ready) (hin : s.ModInput) : (modulate s).OutputInv where
  ready _ := hr
  tag _ := rfl
  nframes _ := by
    have hlast : (modulate s).nframes - 1 < (modulate s).nframes := by simp
    exact ⟨by simp, frameExists_of_lt_modulate_nframes hin hlast⟩
  header _ := frameComplete_modulate (f := 0) hin.1 (by simp)
  payload _ f h1 hf := by
    have hcomplete := frameComplete_modulate hin.1 hf
    rwa [if_neg (by omega)] at hcomplete

theorem inv_modulate {s : State} (h : s.Inv) (hr : s.cfgState = .ready) (hin : s.ModInput) : (modulate s).Inv where
  memory := memoryInv_modulate h.memory hin
  output := outputInv_modulate hr hin
  registers := ⟨h.registers.maxBits, h.registers.bitlen, h.registers.configError⟩

/-! ### Every step -/

theorem exec_keeps_inv {i : Instr} {s t : State} (h : s.Inv) (he : exec i s = .next t) : t.Inv := by
  rcases exec_cases he with ⟨c, rfl⟩ | ⟨-, hu, -, rfl⟩ | ⟨-, hu, sch, -, rfl⟩ | ⟨-, hr, hin, rfl⟩ | ⟨-, -, -, d, rfl⟩
  · exact inv_takeFault h c
  · exact inv_initError h hu
  · exact inv_initReady h hu sch _
  · exact inv_respond (inv_modulate h hr hin) .ok 0
  · exact inv_respond h .ok d

theorem runWord_keeps_inv {w : CommandWord} {s t : State} (h : s.Inv) (hw : runWord w s = .next t) : t.Inv := by
  rcases runWord_cases hw with ⟨i, -, hi⟩ | ⟨-, -, rfl⟩
  · exact exec_keeps_inv h hi
  · exact inv_takeFault h .refused

/-- BITLEN takes only values that its register can hold (R30). -/
theorem inv_writeBitlen {s : State} (h : s.Inv) {v : Nat} (hv : bitlenHolds s.params v = true) :
    ({ s with bitlen := v } : State).Inv where
  memory := memoryInv_congr (s := s) rfl rfl rfl h.memory
  output := State.SameOutput.outputInv (s := s) ⟨rfl, rfl, rfl, rfl, rfl, rfl, rfl⟩ h.output
  registers := ⟨h.registers.maxBits, hv, h.registers.configError⟩

/-- The host writes existing cells of BITMEM only (R50). -/
theorem inv_writeBit {s : State} (h : s.Inv) {a : Nat} (ha : bitExists s.params a = true) (b : Bool) :
    ({ s with bitmem := s.bitmem.write a b } : State).Inv where
  memory := by
    refine ⟨Memory.write_wf h.memory.bitmem_wf a b, h.memory.framemem_wf, fun c hc => ?_, h.memory.framemem_exists⟩
    rcases Memory.mem_write hc with rfl | hc
    · exact ha
    · exact h.memory.bitmem_exists c hc
  output := State.SameOutput.outputInv (s := s) ⟨rfl, rfl, rfl, rfl, rfl, rfl, rfl⟩ h.output
  registers := ⟨h.registers.maxBits, h.registers.bitlen, h.registers.configError⟩

theorem runMove_keeps_inv {m : HostMove} {s t : State} (h : s.Inv) (hm : runMove m s = .next t) : t.Inv := by
  rcases runMove_cases hm with ⟨w, -, hw⟩ | ⟨-, rfl⟩ | ⟨r, v, -, hreg⟩ | ⟨a, b, -, ha, rfl⟩ | ⟨-, -, -, -, o, rfl | rfl⟩
  · exact runWord_keeps_inv h hw
  · exact inv_resetBlock h
  · rcases hreg with ⟨-, -, rfl⟩ | ⟨-, hv, rfl⟩ | ⟨-, -, rfl⟩
    · exact State.SameOutput.inv (s := s) ⟨rfl, rfl, rfl, rfl, rfl, rfl, rfl⟩ rfl rfl (fun _ hb => hb) h
    · exact inv_writeBitlen h hv
    · exact h
  · exact inv_writeBit h ha b
  · exact inv_draw (inv_deliver h o)
  · exact inv_deliver h o

/-- Settles O46, move by move: what every operation of the block writes keeps the invariant. -/
theorem stepKeepsTheInvariant : Obligations.StepKeepsTheInvariant := by
  intro s t h hstep
  rcases step_cases hstep with ⟨-, rfl⟩ | ⟨m, rest, -, hm⟩
  · exact h
  · exact runMove_keeps_inv (inv_accept h rest) hm

/-- Settles O47: no output is valid, both memories are empty, and with MAXBITS unbounded every BITLEN fits. -/
theorem resetStateMeetsTheInvariant : Obligations.ResetStateMeetsTheInvariant where
  memory := ⟨Memory.reset_wf.1, Memory.reset_wf.2, fun _ hc => (nomatch hc), fun _ hc => nomatch hc⟩
  output := outputInv_of_invalid rfl
  registers := ⟨fun _ hm => (nomatch hm), rfl, fun hc => nomatch hc⟩

/-- Settles O38: each conjunct is a field of `State.reset`. -/
theorem resetStateIsFresh : Obligations.ResetStateIsFresh := ⟨⟨rfl, rfl, rfl⟩, rfl, rfl, rfl⟩

/-! ## Register FAULT (R26) -/

/-- FAULT after a command that ended with a status (R26, R186). -/
def faultAfter (st : Status) (f : BitVec 5) : BitVec 5 :=
  match st with
  | .ok => f
  | .fault c => setFault c f

@[simp] theorem faultAfter_ok (f : BitVec 5) : faultAfter .ok f = f := rfl

@[simp] theorem faultAfter_fault (c : Cause) (f : BitVec 5) : faultAfter (.fault c) f = setFault c f := rfl

theorem getLsbD_faultAfter_of_set (st : Status) {f : BitVec 5} {b : Nat} (h : f.getLsbD b = true) :
    (faultAfter st f).getLsbD b = true := by
  cases st with
  | ok => exact h
  | fault c => exact getLsbD_setFault_of_set c h

/-- Every command that ends delivers one response, and FAULT becomes what the response's status says. -/
theorem exec_ends {i : Instr} {s t : State} (h : exec i s = .next t) :
    ∃ st, EndedWith s t st ∧ t.fault = faultAfter st s.fault := by
  rcases exec_cases h with ⟨c, rfl⟩ | ⟨-, -, -, rfl⟩ | ⟨-, -, sch, -, rfl⟩ | ⟨-, -, -, rfl⟩ | ⟨-, -, -, d, rfl⟩
  · exact ⟨.fault c, ⟨0, rfl⟩, rfl⟩
  · exact ⟨.fault .config, ⟨0, rfl⟩, rfl⟩
  · exact ⟨.ok, ⟨sch.code.setWidth 8, rfl⟩, rfl⟩
  · exact ⟨.ok, ⟨0, rfl⟩, rfl⟩
  · exact ⟨.ok, ⟨d, rfl⟩, rfl⟩

/-- The same of every command word, decodable or not (R88). -/
theorem runWord_ends {w : CommandWord} {s t : State} (h : runWord w s = .next t) :
    ∃ st, EndedWith s t st ∧ t.fault = faultAfter st s.fault := by
  rcases runWord_cases h with ⟨i, -, hi⟩ | ⟨-, -, rfl⟩
  · exact exec_ends hi
  · exact ⟨.fault .refused, ⟨0, rfl⟩, rfl⟩

/-- The status a command has ended with is the one of the last response. -/
theorem EndedWith.status_eq {s t : State} {st st' : Status} {d : BitVec 8} (h : EndedWith s t st)
    (ht : t.outbox = s.outbox ++ [.response st' d]) : st = st' := by
  obtain ⟨d', h⟩ := h
  have heq := List.append_cancel_left (h.symm.trans ht)
  simp only [List.cons.injEq, Output.response.injEq, and_true] at heq
  exact heq.1

/-- No move but reset clears a bit of FAULT (R26). -/
theorem runMove_keeps_fault_bits {m : HostMove} {s t : State} (h : runMove m s = .next t) (hr : m ≠ .reset) {b : Nat}
    (hb : s.fault.getLsbD b = true) : t.fault.getLsbD b = true := by
  by_cases hc : ∃ w, m = .command w
  · obtain ⟨w, rfl⟩ := hc
    obtain ⟨st, -, hf⟩ := runWord_ends (show runWord w s = .next t from h)
    rw [hf]
    exact getLsbD_faultAfter_of_set st hb
  · obtain ⟨-, hf⟩ := runMove_sameOutput h (fun w hw => hc ⟨w, hw⟩) hr
    rwa [hf]

/-- Settles O32: a command's response and its write of FAULT are tied by `runWord_ends`. -/
theorem faultBitsAreSticky : Obligations.FaultBitsAreSticky := by
  intro s t h
  rcases step_head?_cases h with ⟨hm, rfl⟩ | ⟨m, hm, hrun⟩ <;> rw [hm]
  · exact ⟨fun _ _ _ hw => (nomatch hw), fun _ _ hb => hb, fun hr => (nomatch hr)⟩
  · refine ⟨fun w st d hw hout => ?_, fun hr b hb => ?_, fun hr => ?_⟩
    · cases hw
      obtain ⟨st', hend, hf⟩ := runWord_ends (show runWord w _ = .next t from hrun)
      obtain rfl := hend.status_eq hout
      cases st' with
      | ok => exact hf
      | fault c => exact hf
    · exact runMove_keeps_fault_bits hrun (fun hm' => hr (by rw [hm'])) hb
    · cases hr
      cases hrun
      rfl

/-! ## Register CFG_STATE (R34) -/

/-- No word of format M decodes to INIT. -/
theorem decodeMap_ne_init (w : CommandWord) : decodeMap w ≠ .instr .init := by
  have hmap : ∀ sch g, Instr.mapOf sch g ≠ .init := by intro sch g; cases sch <;> simp [Instr.mapOf]
  simp only [decodeMap]
  split_ifs <;> simp [hmap]

/-- INIT has one word (R86). -/
theorem decode_eq_init_iff (w : CommandWord) : decode w = .instr .init ↔ w = 0x1000#16 := by
  constructor
  · intro h
    simp only [decode] at h
    split_ifs at h with hop hz
    · rw [← BitVec.toNat_inj] at hz ⊢
      simp only [BitVec.extractLsb'_toNat, Nat.shiftRight_eq_div_pow, BitVec.toNat_ofNat] at hop hz ⊢
      omega
    · cases h
    · exact absurd h (decodeMap_ne_init w)
    · cases h
  · rintro rfl
    decide

/-- INIT in UNCONFIGURED goes to READY with the scheme of the string, or to CONFIG_ERROR (R161). -/
theorem execInit_unconfigured {s t : State} (hu : s.cfgState = .unconfigured) (h : execInit s = .next t) :
    (∃ sch, recognise s.cfgStr = some sch ∧ t.cfgState = .ready ∧ t.scheme = sch) ∨
      (recognise s.cfgStr = none ∧ t.cfgState = .configError ∧ t.scheme = s.scheme) := by
  rcases execInit_cases s with ⟨hc, -⟩ | ⟨hc, -⟩ | ⟨-, hnone, he⟩ | ⟨-, sch, hsome, he⟩
  · rw [hu] at hc; cases hc
  · rw [hu] at hc; cases hc
  · rw [he] at h; cases h
    exact .inr ⟨hnone, rfl, rfl⟩
  · rw [he] at h; cases h
    exact .inl ⟨sch, hsome, rfl, rfl⟩

/-- Every command but an INIT in UNCONFIGURED keeps CFG_STATE and SCHEME. -/
theorem exec_keeps_cfgState {i : Instr} {s t : State} (h : exec i s = .next t)
    (hi : ¬(i = .init ∧ s.cfgState = .unconfigured)) : t.cfgState = s.cfgState ∧ t.scheme = s.scheme := by
  rcases exec_cases h with ⟨c, rfl⟩ | ⟨h1, h2, -⟩ | ⟨h1, h2, -⟩ | ⟨-, -, -, rfl⟩ | ⟨-, -, -, d, rfl⟩
  · exact ⟨rfl, rfl⟩
  · exact absurd ⟨h1, h2⟩ hi
  · exact absurd ⟨h1, h2⟩ hi
  · exact ⟨rfl, rfl⟩
  · exact ⟨rfl, rfl⟩

/-- Every command word but INIT's in UNCONFIGURED keeps CFG_STATE and SCHEME. -/
theorem runWord_keeps_cfgState {w : CommandWord} {s t : State} (h : runWord w s = .next t)
    (hw : ¬(w = 0x1000#16 ∧ s.cfgState = .unconfigured)) : t.cfgState = s.cfgState ∧ t.scheme = s.scheme := by
  rcases runWord_cases h with ⟨i, hd, hi⟩ | ⟨-, -, rfl⟩
  · exact exec_keeps_cfgState hi fun ⟨h1, h2⟩ => hw ⟨(decode_eq_init_iff w).1 (h1 ▸ hd), h2⟩
  · exact ⟨rfl, rfl⟩

/-- Settles O35: the moves split into reset, command words and the rest, and INIT's word is the only one of its row. -/
theorem transitionsOfCfgState : Obligations.TransitionsOfCfgState := by
  intro s t h
  rcases step_head?_cases h with ⟨hm, rfl⟩ | ⟨m, hm, hrun⟩ <;> rw [hm]
  · exact ⟨fun hr => (nomatch hr), fun hi => (nomatch hi), fun _ _ => ⟨rfl, rfl⟩⟩
  · refine ⟨fun hr => ?_, fun hi hu => ?_, fun hr hi => ?_⟩
    · cases hr
      cases hrun
      rfl
    · cases hi
      have hinit : runWord 0x1000#16 (s.accept s.inbox.tail) = execInit (s.accept s.inbox.tail) := by
        rw [runWord, (decode_eq_init_iff _).2 rfl]
        rfl
      exact execInit_unconfigured (s := s.accept s.inbox.tail) hu (hinit.symm.trans hrun)
    · by_cases hc : ∃ w, m = .command w
      · obtain ⟨w, rfl⟩ := hc
        exact runWord_keeps_cfgState (s := s.accept s.inbox.tail) (w := w) hrun fun ⟨hw, hu⟩ => hi ⟨by rw [hw], hu⟩
      · obtain ⟨hsame, -⟩ := runMove_sameOutput hrun (fun w hw => hc ⟨w, hw⟩) fun hm' => hr (by rw [hm'])
        exact ⟨hsame.cfgState, hsame.scheme⟩

/-! ## The accesses of the host (R30, R66) -/

/-- Settles O40, by the branches of `writeRegister`. -/
theorem hostRegisterWrites : Obligations.HostRegisterWrites := by
  intro s r v rest hm
  rw [step_of_inbox hm, runMove]
  refine ⟨?_, ?_, fun hs hb => ?_⟩
  · rintro rfl hv
    exact if_pos hv
  · rintro rfl hv
    exact if_pos (bitlenHolds_of_le hv)
  · cases r with
    | cfgStr => exact absurd rfl hs
    | bitlen => exact absurd rfl hb
    | cfgState | scheme | fault | outValid | nframes | tag => rfl

/-- Settles O42: a read only delivers and, where it may give a free value, advances the counter. -/
theorem hostReadsHaveNoSideEffect : Obligations.HostReadsHaveNoSideEffect := by
  intro s t m rest hm h hread
  rw [step_of_inbox hm] at h
  have hreads : ∃ o, t = draw (deliver o (s.accept rest)) ∨ t = deliver o (s.accept rest) := by
    rcases runMove_cases h with ⟨w, rfl, -⟩ | ⟨rfl, -⟩ | ⟨r, v, rfl, -⟩ | ⟨a, b, rfl, -⟩ | ⟨-, -, -, -, hreads⟩
    · simp at hread
    · simp at hread
    · simp at hread
    · simp at hread
    · exact hreads
  obtain ⟨o, rfl | rfl⟩ := hreads
  · exact ⟨⟨o, rfl⟩, rfl, rfl⟩
  · exact ⟨⟨o, rfl⟩, rfl, rfl⟩

/-- A slot below NFRAMES is read with its content while OUT_VALID is 1 (R58). -/
theorem slotValue_of_slot {s : State} {f k : Nat} {w : SlotWord} (hv : s.outValid = true) (hf : f < s.nframes)
    (hw : s.slot f k = some w) : s.slotValue f k = w := by
  rw [State.slotValue, State.validSlot, if_pos ⟨hv, hf⟩, hw, Option.getD_some]

/-- Settles O43: where a register or a slot has a content, `registerValue` and `slotValue` are that content. -/
theorem hostReadsDeliverTheContent : Obligations.HostReadsDeliverTheContent := by
  intro s rest
  refine ⟨fun r hm hsch hnf htag => ?_, fun f k w hm hv hf hk hex hw => ?_, fun sch x hm hx => ?_⟩
  · refine ⟨readRegister r (s.accept rest), by rw [step_of_inbox hm, runMove], ?_⟩
    cases r with
    | cfgStr | bitlen | cfgState | fault | outValid => rfl
    | scheme => simp [readRegister, State.registerValue, hsch rfl]
    | nframes => simp [readRegister, State.registerValue, hnf rfl]
    | tag => simp [readRegister, State.registerValue, htag rfl]
  · have hval : (s.accept rest).slotValue f k = w := slotValue_of_slot hv hf hw
    refine ⟨draw (deliver (.slot f k w) (s.accept rest)), ?_, rfl⟩
    rw [step_of_inbox hm, runMove, readSlot, if_pos ⟨(frameExists_iff _ _).2 hex, hk⟩, hval]
  · refine ⟨deliver (.point sch x (Config.crom sch x)) (s.accept rest), ?_, rfl⟩
    rw [step_of_inbox hm, runMove, readCrom, if_pos hx]

/-! ## The layout of CFG_STR (R22, R64) -/

/-- A word shifted up by a byte, with the character `c` in the byte that became free. -/
def pushByte (c : BitVec 8) (w : ConfigWord) : ConfigWord := w <<< 8 ||| c.setWidth 64

theorem configWord_eq_foldr (chars : List (BitVec 8)) : configWord chars = (chars.take 8).foldr pushByte 0 := rfl

/-- The lowest byte is the one pushed. -/
theorem lowByte_pushByte (c : BitVec 8) (w : ConfigWord) : (pushByte c w).extractLsb' 0 8 = c := by
  ext i hi
  have h64 : i < 64 := by omega
  simp [pushByte, hi, h64]

/-- The other bytes are those of the word, one place lower. -/
theorem nextByte_pushByte (c : BitVec 8) (w : ConfigWord) {j : Nat} (hj : j + 1 < 8) :
    (pushByte c w).extractLsb' (8 * (j + 1)) 8 = w.extractLsb' (8 * j) 8 := by
  ext i hi
  have h64 : 8 * (j + 1) + i < 64 := by omega
  have hlow : ¬8 * (j + 1) + i < 8 := by omega
  have htop : c.getLsbD (8 * (j + 1) + i) = false := BitVec.getLsbD_of_ge c _ (by omega)
  have hsub : 8 * (j + 1) + i - 8 = 8 * j + i := by omega
  simp [pushByte, h64, hlow, htop, hsub, ← BitVec.getLsbD_eq_getElem]

/-- Byte `j` of characters pushed from the last to the first is character `j`. -/
theorem byte_foldr_pushByte (chars : List (BitVec 8)) {j : Nat} (hj : j < 8) :
    (chars.foldr pushByte 0).extractLsb' (8 * j) 8 = chars.getD j 0 := by
  induction chars generalizing j with
  | nil => simp
  | cons c chars ih =>
    rw [List.foldr_cons]
    cases j with
    | zero => exact lowByte_pushByte c _
    | succ j => rw [nextByte_pushByte c _ hj, ih (by omega), List.getD_cons_succ]

/-- Settles O27, by induction on the string; what `take 8` drops has no byte below 8. -/
theorem configWordLayout : Obligations.ConfigWordLayout := by
  intro chars j hj
  rw [configWord_eq_foldr, byte_foldr_pushByte _ hj]
  simp [List.getD_eq_getElem?_getD, hj]

end Sys2Proof.Machine

/-! # The memories: bit groups, BITMEM, FRAMEMEM, and who writes which piece of state

The proofs of the statements about spec/20_memory.md. -/

namespace Sys2Proof.Machine

/-! ## The index of a bit group (R63) -/

/-- Settles O7, by induction on the group: its first bit is the term `j = 0` of the sum, and every other term is one of
the rest of the group, at `j + 1`. -/
theorem groupIndexIsTheBinaryValue : Obligations.GroupIndexIsTheBinaryValue := by
  intro g
  induction g with
  | nil => rfl
  | cons b g ih =>
    have hexp : ∀ j, g.length - 1 - j = g.length - (j + 1) := fun j => by omega
    rw [groupIndex, ih, List.length_cons, Finset.sum_range_succ', Nat.add_comm]
    simp only [List.getD_cons_succ, List.getD_cons_zero, Nat.add_sub_cancel, Nat.sub_zero, hexp]

/-! ## The writes of MOD (R56) -/

/-- A MOD that ends in READY, its input being at least the header, has written its output model. -/
theorem eq_modulate_of_exec_mod {s t : State} (h : exec .mod s = .next t) (hr : s.cfgState = .ready)
    (h48 : 48 ≤ s.bitlen) : t = respond .ok 0 (modulate s) := by
  rcases execMod_cases s with ⟨hc, -⟩ | ⟨hc, -⟩ | ⟨-, hshort, -⟩ | ⟨-, -, he⟩ | ⟨-, -, -, he⟩
  · rw [hr] at hc; cases hc
  · rw [hr] at hc; cases hc
  · omega
  · rw [exec, he] at h; cases h; rfl
  · rw [exec, he] at h; cases h

/-- A cell of FRAMEMEM that is in no frame below NFRAMES reads after a MOD as before. -/
theorem read_modulate_of_ne (s : State) {a : Nat}
    (ha : ∀ f k, f < (modulate s).nframes → k < frameSlots → a ≠ slotAddr f k) :
    (modulate s).framemem.read a = s.framemem.read a := by
  obtain ⟨f, k, hk, rfl⟩ := slotAddr_surj a
  have hf : ¬f < 1 + payloadFrameCount s.scheme s.bitlen := fun hf => ha f k hf hk rfl
  exact (slot_modulate s f hk).trans (if_neg hf)

/-- Settles O24: the frames below NFRAMES are those of `slot_modulate_points`, and every other cell is kept. -/
theorem modWritesItsFramesOnly : Obligations.ModWritesItsFramesOnly := by
  intro s t h hr h48
  obtain rfl := eq_modulate_of_exec_mod h hr h48
  refine ⟨fun f k hf hk => ?_, fun f k hf hk => ?_, fun a ha => read_modulate_of_ne s ha, fun a => rfl⟩
  · obtain ⟨pts, -, hslot, -⟩ := slot_modulate_points s h48 hf
    exact ⟨frameSlot pts k, hslot k hk⟩
  · obtain ⟨pts, -, hslot, -⟩ := slot_modulate_points s h48 hf
    exact (hslot k (lt_frameSlots_of_mem_emptySet k hk)).trans (congrArg some (frameSlot_empty pts hk))

/-! ## Who writes which piece of state (R69, R214) -/

/-- `t` has the parameters and the input of `s`: the registers and the memory that are the host's to write. -/
structure State.SameInput (s t : State) : Prop where
  params : t.params = s.params
  cfgStr : t.cfgStr = s.cfgStr
  bitlen : t.bitlen = s.bitlen
  bitmem : t.bitmem = s.bitmem

theorem sameInput_takeFault (s : State) (c : Cause) : s.SameInput (takeFault c s) := ⟨rfl, rfl, rfl, rfl⟩

theorem exec_sameInput {i : Instr} {s t : State} (h : exec i s = .next t) : s.SameInput t := by
  rcases exec_cases h with ⟨c, rfl⟩ | ⟨-, -, -, rfl⟩ | ⟨-, -, sch, -, rfl⟩ | ⟨-, -, -, rfl⟩ | ⟨-, -, -, d, rfl⟩
  · exact sameInput_takeFault s c
  · exact ⟨rfl, rfl, rfl, rfl⟩
  · exact ⟨rfl, rfl, rfl, rfl⟩
  · exact ⟨rfl, rfl, rfl, rfl⟩
  · exact ⟨rfl, rfl, rfl, rfl⟩

/-- No command word, decodable or not, writes what is the host's (R69). -/
theorem runWord_sameInput {w : CommandWord} {s t : State} (h : runWord w s = .next t) : s.SameInput t := by
  rcases runWord_cases h with ⟨i, -, hi⟩ | ⟨-, -, rfl⟩
  · exact exec_sameInput hi
  · exact sameInput_takeFault s .refused

/-- No move of the host changes the parameters (R9). -/
theorem runMove_keeps_params {m : HostMove} {s t : State} (h : runMove m s = .next t) : t.params = s.params := by
  rcases runMove_cases h with ⟨w, -, hw⟩ | ⟨-, rfl⟩ | ⟨r, v, -, hreg⟩ | ⟨a, b, -, -, rfl⟩ | ⟨-, -, -, -, o, rfl | rfl⟩
  · exact (runWord_sameInput hw).params
  · rfl
  · rcases hreg with ⟨-, -, rfl⟩ | ⟨-, -, rfl⟩ | ⟨-, -, rfl⟩ <;> rfl
  · rfl
  · rfl
  · rfl

/-- Settles O39: a command keeps the input (`runWord_sameInput`), every other move but reset keeps the output model and
FAULT (`runMove_sameOutput`), and every move keeps the parameters (`runMove_keeps_params`). -/
theorem everyPieceOfStateHasOneWriter : Obligations.EveryPieceOfStateHasOneWriter := by
  intro s t m rest hm h
  rw [step_of_inbox hm] at h
  refine ⟨?_, fun hc hr => ?_, ?_⟩
  · rintro w rfl
    obtain ⟨-, hstr, hlen, hmem⟩ := runWord_sameInput (show runWord w (s.accept rest) = .next t from h)
    exact ⟨hstr, hlen, hmem⟩
  · obtain ⟨⟨-, hstate, hsch, hvalid, hnf, htag, hfm⟩, hfault⟩ := runMove_sameOutput h hc hr
    exact ⟨hstate, hsch, hfault, hvalid, hnf, htag, hfm⟩
  · exact (runMove_keeps_params h).trans (accept_params s rest)

/-! ## Cells and entries that exist, and those that do not (R50, R54, R60) -/

/-- The bits of BITMEM after the host has written one cell (R53). -/
theorem bit_write {s t : State} {a : Nat} {b : Bool} (h : t.bitmem = s.bitmem.write a b) (a' : Nat) :
    t.bit a' = if a' = a then b else s.bit a' := by
  rw [State.bit, h, Memory.read_write, State.bit]
  by_cases ha : a' = a
  · rw [if_pos ha, if_pos ha.symm, Option.getD_some]
  · rw [if_neg ha, if_neg fun he => ha he.symm]

/-- Settles O41: the cell exists exactly below MAXBITS, and a write to it is one `Memory.write`. -/
theorem hostBitWrites : Obligations.HostBitWrites := by
  intro s a b rest hm
  rw [step_of_inbox hm, runMove, writeBit, accept_params]
  refine ⟨fun hex => ⟨s.bitmem.write a b, if_pos ((bitExists_iff _ _).2 hex), bit_write rfl⟩, ?_⟩
  rintro ⟨m, hmax, hle⟩
  exact if_neg fun hex => Nat.not_lt.2 hle ((bitExists_iff _ _).1 hex m hmax)

/-- Settles O44: the guards of `readSlot` and `readCrom` fail. -/
theorem addressesThatDoNotExist : Obligations.AddressesThatDoNotExist := by
  refine ⟨fun s f k rest hm hout => ?_, fun s sch x rest hm hx => ?_⟩
  · rw [step_of_inbox hm, runMove, readSlot, accept_params]
    refine if_neg ?_
    rintro ⟨hframe, hslot⟩
    rcases hout with hk | ⟨m, hmax, hle⟩
    · exact Nat.not_lt.2 hk hslot
    · exact Nat.not_lt.2 hle ((frameExists_iff _ _).1 hframe m hmax)
  · rw [step_of_inbox hm, runMove, readCrom]
    exact if_neg (Nat.not_lt.2 hx)

end Sys2Proof.Machine

/-! # Command words: the decoder, the encoder, and what presenting a word does

The proofs of the statements about spec/30_encoding.md. The fields of a word are read as numbers, so that what R88 and
R93 say of a word becomes arithmetic. `decode_decodesByR88` says once what the decoder can answer. -/

namespace Sys2Proof.Machine

/-! ## Fields of a word as numbers (R81) -/

theorem toNat_append_eq_add {m n : Nat} (x : BitVec m) (y : BitVec n) :
    (x ++ y).toNat = x.toNat * 2 ^ n + y.toNat := by
  rw [BitVec.toNat_append, ← Nat.shiftLeft_add_eq_or_of_lt y.isLt, Nat.shiftLeft_eq]

theorem toNat_field (w : CommandWord) (i n : Nat) : (w.extractLsb' i n).toNat = w.toNat / 2 ^ i % 2 ^ n := by
  rw [BitVec.extractLsb'_toNat, Nat.shiftRight_eq_div_pow]

theorem toNat_opcode (w : CommandWord) : (w.extractLsb' 12 4).toNat = w.toNat / 4096 := by
  rw [toNat_field]
  omega

theorem field_eq_zero_iff (w : CommandWord) (i n : Nat) : w.extractLsb' i n = 0#n ↔ w.toNat / 2 ^ i % 2 ^ n = 0 := by
  rw [← BitVec.toNat_inj, toNat_field, BitVec.toNat_ofNat, Nat.zero_mod]

theorem getLsbD_eq_true_iff {n : Nat} (w : BitVec n) (i : Nat) : w.getLsbD i = true ↔ w.toNat / 2 ^ i % 2 = 1 := by
  rw [← BitVec.testBit_toNat, Nat.testBit_eq_decide_div_mod_eq, decide_eq_true_iff]

/-! ## Bit groups in a field (R83, R89) -/

@[simp] theorem groupOf_length (len : Nat) (grp : BitVec 6) : (groupOf len grp).length = len := by simp [groupOf]

/-- A field holds the first bit of a group as its most significant one. -/
theorem groupOf_succ (len : Nat) (grp : BitVec 6) :
    groupOf (len + 1) grp = grp.getLsbD len :: groupOf len grp := by
  simp only [groupOf, List.range_succ_eq_map, List.map_cons, List.map_map, List.cons.injEq]
  exact ⟨rfl, List.map_congr_left fun j _ => congrArg grp.getLsbD
    (show len + 1 - 1 - (j + 1) = len - 1 - j by omega)⟩

theorem groupIndex_groupOf (len : Nat) (grp : BitVec 6) : groupIndex (groupOf len grp) = grp.toNat % 2 ^ len := by
  induction len with
  | zero => simp [groupOf, groupIndex, Nat.mod_one]
  | succ len ih =>
    rw [groupOf_succ, groupIndex, groupOf_length, ih, Nat.mod_pow_succ, Nat.add_comm, Nat.mul_comm,
      ← BitVec.testBit_toNat, Nat.toNat_testBit]

theorem groupIndex_lt_64 {g : Bits} (h : g.length ≤ 6) : groupIndex g < 64 :=
  lt_of_lt_of_le (groupIndex_lt g) (Nat.pow_le_pow_right (n := 2) (by decide) h)

/-- Reading the field that holds a group gives the group back. -/
theorem groupOf_groupIndex {g : Bits} (h : g.length ≤ 6) : groupOf g.length (BitVec.ofNat 6 (groupIndex g)) = g := by
  refine groupIndex_inj (groupOf_length _ _) ?_
  rw [groupIndex_groupOf, BitVec.toNat_ofNat, Nat.mod_eq_of_lt (groupIndex_lt_64 h), Nat.mod_eq_of_lt (groupIndex_lt g)]

/-! ## The words of the commands as numbers (R93) -/

theorem encode_mapOf (s : Scheme) (g : Bits) : encode (.mapOf s g) = encodeMap s g := by cases s <;> rfl

theorem toNat_encodeMap (s : Scheme) {g : Bits} (h : g.length ≤ 6) :
    (encodeMap s g).toNat = 0x3000 + 512 * s.code.toNat + 64 * g.length + groupIndex g := by
  have hlen : (BitVec.ofNat 3 g.length).toNat = g.length := by
    rw [BitVec.toNat_ofNat]; exact Nat.mod_eq_of_lt (by omega)
  have hidx : (BitVec.ofNat 6 (groupIndex g)).toNat = groupIndex g := by
    rw [BitVec.toNat_ofNat]; exact Nat.mod_eq_of_lt (groupIndex_lt_64 h)
  simp only [encodeMap, toNat_append_eq_add, hlen, hidx, BitVec.toNat_ofNat]
  omega

theorem toNat_encode_init : (encode .init).toNat = 0x1000 := rfl

theorem toNat_encode_mod : (encode .mod).toNat = 0x2000 := rfl

theorem toNat_encode_xlt (pos : BitVec 6) : (encode (.xlt pos)).toNat = 0x4000 + pos.toNat := by
  rw [encode, toNat_append_eq_add, BitVec.toNat_append]
  rfl

/-- Settles O5: the fields of a format M word do not overlap, a group of at most six bits fitting its field. -/
theorem wordsOfTheTextualCommands : Obligations.WordsOfTheTextualCommands := by
  refine ⟨toNat_encode_init, toNat_encode_mod, fun s g h => ?_, toNat_encode_xlt⟩
  rw [encode_mapOf, toNat_encodeMap s h]

/-! ## The decoder -/

/-- The cases (a) to (f) of R88, in that order; `undecodable_iff` ties them to the decoder. -/
def InUndecodableCase (w : CommandWord) : Prop :=
  (w.toNat / 4096 = 0 ∨ 5 ≤ w.toNat / 4096) ∨
    ((w.toNat / 4096 = 1 ∨ w.toNat / 4096 = 2) ∧ w.toNat % 4096 ≠ 0) ∨
    (w.toNat / 4096 = 3 ∧ w.toNat / 2048 % 2 = 1) ∨
    (w.toNat / 4096 = 3 ∧ w.toNat / 64 % 8 = 7) ∨
    (w.toNat / 4096 = 3 ∧ ∃ j, w.toNat / 64 % 8 ≤ j ∧ j ≤ 5 ∧ w.getLsbD j = true) ∨
    (w.toNat / 4096 = 4 ∧ w.toNat / 64 % 64 ≠ 0)

/-- Nothing of `grp` is left above the group exactly when no bit of `grp[5:len]` is set (R88 (e)). -/
theorem grp_shiftRight_eq_zero_iff (w : CommandWord) (len : Nat) :
    w.extractLsb' 0 6 >>> len = 0#6 ↔ ¬∃ j, len ≤ j ∧ j ≤ 5 ∧ w.getLsbD j = true := by
  have hbit : ∀ i, (w.extractLsb' 0 6 >>> len).getLsbD i = (decide (len + i < 6) && w.getLsbD (len + i)) := fun i => by
    rw [BitVec.getLsbD_ushiftRight, BitVec.getLsbD_extractLsb', Nat.zero_add]
  simp only [BitVec.eq_of_getLsbD_eq_iff, hbit, BitVec.getLsbD_zero]
  constructor
  · rintro h ⟨j, hl, h5, hj⟩
    have hi := h (j - len) (by omega)
    rw [Nat.add_sub_cancel' hl, hj, Bool.and_true, decide_eq_false_iff_not] at hi
    omega
  · intro h i _
    rw [Bool.and_eq_false_iff, decide_eq_false_iff_not, ← Bool.not_eq_true, ← not_and_or]
    exact fun ⟨h6, hj⟩ => h ⟨len + i, by omega, by omega, hj⟩

/-- Nothing is left above the group exactly when the field's number is below `2^len`. -/
theorem shiftRight_eq_zero_iff_lt (grp : BitVec 6) (len : Nat) : grp >>> len = 0#6 ↔ grp.toNat < 2 ^ len := by
  rw [← BitVec.toNat_inj, BitVec.toNat_ushiftRight, Nat.shiftRight_eq_div_pow, BitVec.toNat_ofNat, Nat.zero_mod,
    Nat.div_eq_zero_iff_lt (Nat.two_pow_pos len)]

theorem wellFormed_mapOf (s : Scheme) (g : Bits) : (Instr.mapOf s g).WellFormed ↔ g.length ≤ 6 := by
  cases s <;> exact decide_eq_true_iff

/-- A word either falls under R88, and is undecodable, or is the word of the well-formed command it decodes to. -/
def DecodesByR88 (w : CommandWord) (d : Decoded) : Prop :=
  (InUndecodableCase w ∧ ∃ why, d = .undecodable why) ∨
    (¬InUndecodableCase w ∧ ∃ i, d = .instr i ∧ i.WellFormed ∧ encode i = w)

/-- Under opcode 3 the cases are (c) to (e), here in the terms of `decodeMap`. -/
theorem inUndecodableCase_formatM {w : CommandWord} (hop : w.toNat / 4096 = 3) :
    InUndecodableCase w ↔ w.getLsbD 11 = true ∨ w.toNat / 64 % 8 = 7 ∨
      w.extractLsb' 0 6 >>> (w.toNat / 64 % 8) ≠ 0#6 := by
  simp only [InUndecodableCase, hop, getLsbD_eq_true_iff w 11, ne_eq, grp_shiftRight_eq_zero_iff, not_not]
  norm_num

theorem decodeMap_decodesByR88 {w : CommandWord} (hop : w.toNat / 4096 = 3) : DecodesByR88 w (decodeMap w) := by
  have hlen : (w.extractLsb' 6 3).toNat = w.toNat / 64 % 8 := toNat_field w 6 3
  simp only [decodeMap, DecodesByR88, inUndecodableCase_formatM hop, hlen]
  split_ifs with h11 h7 hgrp
  · exact .inl ⟨.inl h11, _, rfl⟩
  · exact .inl ⟨.inr (.inl h7), _, rfl⟩
  · exact .inl ⟨.inr (.inr hgrp), _, rfl⟩
  · have hshort : (groupOf (w.toNat / 64 % 8) (w.extractLsb' 0 6)).length ≤ 6 := by rw [groupOf_length]; omega
    refine .inr ⟨by tauto, _, rfl, (wellFormed_mapOf _ _).2 hshort, BitVec.eq_of_toNat_eq ?_⟩
    have hidx := (shiftRight_eq_zero_iff_lt _ _).1 (not_not.1 hgrp)
    rw [getLsbD_eq_true_iff] at h11
    rw [encode_mapOf, toNat_encodeMap _ hshort, groupOf_length, code_ofCode, groupIndex_groupOf, Nat.mod_eq_of_lt hidx,
      toNat_field, toNat_field]
    omega

/-- Under any other opcode the cases are (a), (b) and (f). -/
theorem inUndecodableCase_of_ne_formatM {w : CommandWord} (hop : w.toNat / 4096 ≠ 3) :
    InUndecodableCase w ↔ (w.toNat / 4096 = 0 ∨ 5 ≤ w.toNat / 4096) ∨
      ((w.toNat / 4096 = 1 ∨ w.toNat / 4096 = 2) ∧ w.toNat % 4096 ≠ 0) ∨
      (w.toNat / 4096 = 4 ∧ w.toNat / 64 % 64 ≠ 0) := by
  simp only [InUndecodableCase, hop, false_and, false_or]

theorem decode_of_formatM {w : CommandWord} (hop : w.toNat / 4096 = 3) : decode w = decodeMap w := by
  simp only [decode, toNat_opcode, hop]
  rfl

/-- What the decoder can answer, opcode by opcode. -/
theorem decode_decodesByR88 (w : CommandWord) : DecodesByR88 w (decode w) := by
  by_cases h3 : w.toNat / 4096 = 3
  · rw [decode_of_formatM h3]
    exact decodeMap_decodesByR88 h3
  · have hw := w.isLt
    simp only [decode, toNat_opcode, field_eq_zero_iff, if_neg h3, DecodesByR88, inUndecodableCase_of_ne_formatM h3]
    split_ifs with h1 hz h2 hz h4 hz
    · exact .inr ⟨by omega, _, rfl, rfl, BitVec.eq_of_toNat_eq (by rw [toNat_encode_init]; omega)⟩
    · exact .inl ⟨by omega, _, rfl⟩
    · exact .inr ⟨by omega, _, rfl, rfl, BitVec.eq_of_toNat_eq (by rw [toNat_encode_mod]; omega)⟩
    · exact .inl ⟨by omega, _, rfl⟩
    · exact .inr ⟨by omega, _, rfl, rfl, BitVec.eq_of_toNat_eq (by rw [toNat_encode_xlt, toNat_field]; omega)⟩
    · exact .inl ⟨by omega, _, rfl⟩
    · exact .inl ⟨by omega, _, rfl⟩

/-- Settles O3: both facts stand in the decodable case of `decode_decodesByR88`. -/
theorem encodeOfDecodeIsTheWord : Obligations.EncodeOfDecodeIsTheWord := by
  intro w i h
  rcases decode_decodesByR88 w with ⟨-, why, hd⟩ | ⟨-, i', hd, hwf, hw⟩ <;> rw [h] at hd <;> cases hd
  exact ⟨hwf, hw⟩

theorem undecodable_iff (w : CommandWord) : (∃ why, decode w = .undecodable why) ↔ InUndecodableCase w := by
  rcases decode_decodesByR88 w with ⟨hcase, hd⟩ | ⟨hcase, i, hd, -⟩
  · exact iff_of_true hd hcase
  · exact iff_of_false (by simp [hd]) hcase

/-- The decoder finds every field of a format M word as the encoder placed it. -/
theorem decode_encodeMap (s : Scheme) {g : Bits} (h : g.length ≤ 6) : decode (encodeMap s g) = .instr (.mapOf s g) := by
  have hw := toNat_encodeMap s h
  have hidx := groupIndex_lt_64 h
  have hcode := s.code.isLt
  have hop : (encodeMap s g).toNat / 4096 = 3 := by omega
  have h11 : ¬(encodeMap s g).getLsbD 11 = true := by rw [getLsbD_eq_true_iff]; omega
  have hsch : (encodeMap s g).extractLsb' 9 2 = s.code := BitVec.eq_of_toNat_eq (by rw [toNat_field]; omega)
  have hlen : ((encodeMap s g).extractLsb' 6 3).toNat = g.length := by rw [toNat_field]; omega
  have hgrp : (encodeMap s g).extractLsb' 0 6 = BitVec.ofNat 6 (groupIndex g) :=
    BitVec.eq_of_toNat_eq (by rw [toNat_field, BitVec.toNat_ofNat]; omega)
  have hhigh : BitVec.ofNat 6 (groupIndex g) >>> g.length = 0#6 := by
    rw [shiftRight_eq_zero_iff_lt, BitVec.toNat_ofNat, Nat.mod_eq_of_lt hidx]
    exact groupIndex_lt g
  rw [decode_of_formatM hop]
  simp only [decodeMap, if_neg h11, hsch, hlen, hgrp, hhigh]
  rw [if_neg (by omega), if_neg (by simp), ofCode_code, groupOf_groupIndex h]

theorem decode_encode_xlt (pos : BitVec 6) : decode (encode (.xlt pos)) = .instr (.xlt pos) := by
  revert pos
  decide

/-- Settles O2, row by row: the four MAP rows are format M, which `decode_encodeMap` reads field by field. -/
theorem decodeOfEncodeIsTheInstruction : Obligations.DecodeOfEncodeIsTheInstruction := by
  intro i h
  cases i with
  | init => decide
  | mod => decide
  | mapBpsk g => exact decode_encodeMap .bpsk ((wellFormed_mapOf .bpsk g).1 h)
  | mapQpsk g => exact decode_encodeMap .qpsk ((wellFormed_mapOf .qpsk g).1 h)
  | mapQam16 g => exact decode_encodeMap .qam16 ((wellFormed_mapOf .qam16 g).1 h)
  | mapQam64 g => exact decode_encodeMap .qam64 ((wellFormed_mapOf .qam64 g).1 h)
  | xlt pos => exact decode_encode_xlt pos

/-! ## Rows of the opcode map (R86) -/

theorem selectsItsRow (i : Instr) : Laws.SelectsItsRow.Statement i := by
  cases i with
  | init => exact Laws.SelectsItsRow.init
  | mod => exact Laws.SelectsItsRow.mod
  | mapBpsk g => exact Laws.SelectsItsRow.mapBpsk g
  | mapQpsk g => exact Laws.SelectsItsRow.mapQpsk g
  | mapQam16 g => exact Laws.SelectsItsRow.mapQam16 g
  | mapQam64 g => exact Laws.SelectsItsRow.mapQam64 g
  | xlt pos => exact Laws.SelectsItsRow.xlt pos

theorem row_mem_opcodeRows (i : Instr) : i.row ∈ opcodeRows := by
  cases i <;> simp [Instr.row, opcodeRows]

/-- Two different rows differ in a bit that both masks compare. -/
theorem opcodeRows_differ_under_both_masks :
    ∀ r ∈ opcodeRows, ∀ r' ∈ opcodeRows, r.pattern &&& r'.mask = r'.pattern &&& r.mask → r = r' := by decide

/-- Two rows that one word selects agree under both masks, so they are the same row. -/
theorem opcodeRow_unique {r r' : OpcodeRow} (hr : r ∈ opcodeRows) (hr' : r' ∈ opcodeRows) {w : CommandWord}
    (h : r.selectedBy w = true) (h' : r'.selectedBy w = true) : r = r' := by
  have hp : w &&& r.mask = r.pattern := beq_iff_eq.1 h
  have hp' : w &&& r'.mask = r'.pattern := beq_iff_eq.1 h'
  refine opcodeRows_differ_under_both_masks r hr r' hr' ?_
  rw [← hp, ← hp', BitVec.and_assoc, BitVec.and_assoc, BitVec.and_comm r.mask]

/-- Settles O4: a decodable word is the word of its command (O3), which selects that command's row, and two rows that
one word selects are the same row. -/
theorem decodableWordSelectsOneRow : Obligations.DecodableWordSelectsOneRow := by
  refine ⟨fun w i h => ?_, fun r hr r' hr' w => opcodeRow_unique hr hr'⟩
  obtain ⟨-, rfl⟩ := encodeOfDecodeIsTheWord w i h
  exact ⟨selectsItsRow i, fun r hr hsel => opcodeRow_unique hr (row_mem_opcodeRows i) hsel (selectsItsRow i)⟩

/-! ## The examples of the spec, and the scheme codes (R94, R84) -/

/-- Settles O1: the decoder run on each of the fifteen words. -/
theorem specEncodingExamplesDecode : Obligations.SpecEncodingExamplesDecode := by
  unfold Obligations.SpecEncodingExamplesDecode
  decide

/-- Settles O8: the two tables entry by entry, and `Scheme.ofCode` is the inverse of `Scheme.code`. -/
theorem schemeCodesAndLengths : Obligations.SchemeCodesAndLengths :=
  ⟨⟨rfl, rfl⟩, ⟨rfl, rfl⟩, ⟨rfl, rfl⟩, ⟨rfl, rfl⟩, code_ofCode, ofCode_code⟩

/-! ## The step of a command word (R80, R88) -/

theorem runWord_of_undecodable {w : CommandWord} {why : Undecodable} (h : decode w = .undecodable why) (s : State) :
    runWord w s = .next (takeFault .refused s) := by
  rw [runWord, h]; rfl

theorem runWord_of_instr {w : CommandWord} {i : Instr} (h : decode w = .instr i) (s : State) :
    runWord w s = exec i s := by
  rw [runWord, h]

/-- Settles O6, by `undecodable_iff`; the fault of an undecodable word is `takeFault`'s. -/
theorem undecodableWordsAreRefused : Obligations.UndecodableWordsAreRefused := by
  intro w
  refine ⟨undecodable_iff w, fun why s rest h hm => ?_⟩
  rw [step_of_inbox hm, runMove, runWord_of_undecodable h]
  rfl

/-- Settles O10: the word that `withFetchWord` places is the pending move, and accepting it gives the state back. -/
theorem stepRunsTheDecodedCommand : Obligations.StepRunsTheDecodedCommand := by
  refine fun s w rest i h => ⟨fun hm => ?_, ?_⟩
  · rw [step_of_inbox hm, runMove, runWord_of_instr h]
    rfl
  · rw [step_of_inbox (withFetchWord_inbox s 16 w.toNat), withFetchWord_accept, runMove, BitVec.ofNat_toNat,
      BitVec.setWidth_eq, runWord_of_instr h]

/-! ## One response to every command (R90, R168) -/

/-- From `s` to `t` the host's port was left alone and one response was delivered, with data only where it is OK. -/
def State.Responded (s t : State) : Prop :=
  t.inbox = s.inbox ∧ ∃ st d, t.outbox = s.outbox ++ [.response st d] ∧ (st ≠ .ok → d = 0)

theorem responded_takeFault (s : State) (c : Cause) : s.Responded (takeFault c s) :=
  ⟨rfl, .fault c, 0, rfl, fun _ => rfl⟩

theorem responded_ok {s t : State} {d : BitVec 8} (hi : t.inbox = s.inbox)
    (ho : t.outbox = s.outbox ++ [.response .ok d]) : s.Responded t :=
  ⟨hi, .ok, d, ho, fun h => absurd rfl h⟩

theorem exec_responded {i : Instr} {s t : State} (h : exec i s = .next t) : s.Responded t := by
  rcases exec_cases h with ⟨c, rfl⟩ | ⟨-, -, -, rfl⟩ | ⟨-, -, sch, -, rfl⟩ | ⟨-, -, -, rfl⟩ | ⟨-, -, -, d, rfl⟩
  · exact responded_takeFault s c
  · exact responded_takeFault s .config
  · exact responded_ok rfl rfl
  · exact responded_ok rfl rfl
  · exact responded_ok rfl rfl

theorem runWord_responded {w : CommandWord} {s t : State} (h : runWord w s = .next t) : s.Responded t := by
  rcases runWord_cases h with ⟨i, -, hi⟩ | ⟨-, -, rfl⟩
  · exact exec_responded hi
  · exact responded_takeFault s .refused

theorem mapCommand_next (sch : Scheme) (g : Bits) (s : State) : ∃ t, mapCommand sch g s = .next t := by
  rcases mapCommand_cases sch g s with ⟨-, he⟩ | ⟨-, -, he⟩ | ⟨-, -, he⟩ <;> exact ⟨_, he⟩

/-- Only a MOD whose BITLEN is above MAXBITS does not end (R165). -/
theorem exec_next_of_legal (i : Instr) {s : State} (h : bitlenLegal s.params s.bitlen = true) :
    ∃ t, exec i s = .next t := by
  cases i with
  | init => rcases execInit_cases s with ⟨-, he⟩ | ⟨-, he⟩ | ⟨-, -, he⟩ | ⟨-, sch, -, he⟩ <;> exact ⟨_, he⟩
  | mod =>
    rcases execMod_cases s with ⟨-, he⟩ | ⟨-, he⟩ | ⟨-, -, he⟩ | ⟨-, -, he⟩ | ⟨-, -, hillegal, -⟩
    · exact ⟨_, he⟩
    · exact ⟨_, he⟩
    · exact ⟨_, he⟩
    · exact ⟨_, he⟩
    · rw [h] at hillegal; cases hillegal
  | mapBpsk g => exact mapCommand_next .bpsk g s
  | mapQpsk g => exact mapCommand_next .qpsk g s
  | mapQam16 g => exact mapCommand_next .qam16 g s
  | mapQam64 g => exact mapCommand_next .qam64 g s
  | xlt pos => rcases execXlt_cases pos s with ⟨-, he⟩ | ⟨-, -, he⟩ | ⟨-, -, k, -, he⟩ <;> exact ⟨_, he⟩

theorem runWord_next_of_legal (w : CommandWord) {s : State} (h : bitlenLegal s.params s.bitlen = true) :
    ∃ t, runWord w s = .next t := by
  cases hd : decode w with
  | instr i => rw [runWord_of_instr hd]; exact exec_next_of_legal i h
  | undecodable why => exact ⟨_, runWord_of_undecodable hd s⟩

/-- Settles O12: with a legal BITLEN the word ends (`runWord_next_of_legal`), and it ends with one response
(`runWord_responded`). -/
theorem everyCommandEndsWithOneResponse : Obligations.EveryCommandEndsWithOneResponse := by
  intro s w rest hm hlegal
  obtain ⟨t, ht⟩ := runWord_next_of_legal w (s := s.accept rest) ((bitlenLegal_iff _ _).2 hlegal)
  obtain ⟨hin, st, d, hout, hdata⟩ := runWord_responded ht
  exact ⟨t, st, d, by rw [step_of_inbox hm, runMove, ht], hin, hout, hdata⟩

end Sys2Proof.Machine

/-! # The mapper: `map`, the MAP commands, and the operand faults of the command set

The proofs of the statements about spec/40_mapper.md. `exec_endedWith` says once how each command ends: with the status
that the table of R187 gives it. -/

namespace Sys2Proof.Machine

/-! ## `map` (R100, R101) -/

theorem groupIndex_lt_64_of_length {s : Scheme} {g : Bits} (h : g.length = codeWordLength s) : groupIndex g < 64 :=
  groupIndex_lt_64 (h ▸ codeWordLength_le s)

/-- For a fixed scheme, the point determines the group. -/
theorem mapPoint_inj {s : Scheme} {g h : Bits} (hg : g.length = codeWordLength s) (hh : h.length = codeWordLength s)
    (heq : mapPoint s g = mapPoint s h) : g = h := by
  have hnat := congrArg BitVec.toNat heq
  rw [toNat_mapPoint hg, toNat_mapPoint hh] at hnat
  exact groupIndex_inj (hg.trans hh.symm) (Nat.add_left_cancel hnat)

/-- A reference with the code of the scheme and an index below `2^n` is the point of the group its index field holds. -/
theorem mapPoint_groupOf {s : Scheme} {r : PointRef} (hsch : r.toNat / 64 = s.code.toNat)
    (hidx : r.toNat % 64 < 2 ^ codeWordLength s) :
    mapPoint s (groupOf (codeWordLength s) (BitVec.ofNat 6 r.toNat)) = r := by
  refine BitVec.eq_of_toNat_eq ?_
  rw [toNat_mapPoint (groupOf_length _ _), groupIndex_groupOf, BitVec.toNat_ofNat, Nat.mod_eq_of_lt hidx, ← hsch]
  exact Nat.div_add_mod r.toNat 64

/-- Settles O15: `mapPoint_inj`, and for the image the two fields of the reference, read by `toNat_mapPoint` and
inverted by `mapPoint_groupOf`. -/
theorem mapIsABijectionOntoTheReferences : Obligations.MapIsABijectionOntoTheReferences := by
  refine ⟨fun s g h hg hh => mapPoint_inj hg hh, fun s r => ⟨?_, fun ⟨hsch, hidx⟩ => ?_⟩⟩
  · rintro ⟨g, hg, rfl⟩
    have hlt := groupIndex_lt_64_of_length hg
    rw [toNat_mapPoint hg, Nat.mul_add_mod, Nat.mod_eq_of_lt hlt]
    exact ⟨by omega, groupIndex_lt_of_length hg⟩
  · exact ⟨_, groupOf_length _ _, mapPoint_groupOf hsch hidx⟩

/-! ### The point bit by bit (R102 to R105) -/

theorem mapPoint_bpsk : ∀ b0, mapPoint .bpsk [b0] = 0b00#2 ++ 0b00000#5 ++ BitVec.ofBool b0 := by decide

theorem mapPoint_qpsk : ∀ b0 b1,
    mapPoint .qpsk [b0, b1] = 0b01#2 ++ 0b0000#4 ++ BitVec.ofBool b0 ++ BitVec.ofBool b1 := by decide

theorem mapPoint_qam16 : ∀ b0 b1 b2 b3, mapPoint .qam16 [b0, b1, b2, b3] =
    0b10#2 ++ 0b00#2 ++ BitVec.ofBool b0 ++ BitVec.ofBool b1 ++ BitVec.ofBool b2 ++ BitVec.ofBool b3 := by decide

theorem mapPoint_qam64 : ∀ b0 b1 b2 b3 b4 b5, mapPoint .qam64 [b0, b1, b2, b3, b4, b5] =
    0b11#2 ++ BitVec.ofBool b0 ++ BitVec.ofBool b1 ++ BitVec.ofBool b2 ++ BitVec.ofBool b3 ++ BitVec.ofBool b4 ++
      BitVec.ofBool b5 := by decide

/-! ## The MAP commands (R106) -/

theorem exec_mapOf (sch : Scheme) (g : Bits) (s : State) : exec (.mapOf sch g) s = mapCommand sch g s := by
  cases sch <;> rfl

theorem mapCommand_ok {sch : Scheme} {g : Bits} {s : State} (hc : s.cfgState ≠ .configError)
    (hl : g.length = codeWordLength sch) : mapCommand sch g s = .next (respond .ok (mapPoint sch g) s) := by
  rcases mapCommand_cases sch g s with ⟨hc', -⟩ | ⟨-, hl', -⟩ | ⟨-, -, he⟩
  · exact absurd hc' hc
  · exact absurd hl hl'
  · exact he

theorem mapCommand_groupLen {sch : Scheme} {g : Bits} {s : State} (hc : s.cfgState ≠ .configError)
    (hl : g.length ≠ codeWordLength sch) : mapCommand sch g s = .next (takeFault .groupLen s) := by
  rcases mapCommand_cases sch g s with ⟨hc', -⟩ | ⟨-, -, he⟩ | ⟨-, hl', -⟩
  · exact absurd hc' hc
  · exact he
  · exact absurd hl' hl

theorem mapCommand_config {sch : Scheme} {g : Bits} {s : State} (hc : s.cfgState = .configError) :
    mapCommand sch g s = .next (takeFault .config s) := by
  rcases mapCommand_cases sch g s with ⟨-, he⟩ | ⟨hc', -⟩ | ⟨hc', -⟩
  · exact he
  · exact absurd hc hc'
  · exact absurd hc hc'

/-- Settles O14, one lemma for each way a MAP command ends; the result's bits are those of `mapPoint_bpsk` to
`mapPoint_qam64`. -/
theorem mapCommandsRespond : Obligations.MapCommandsRespond := by
  refine ⟨fun s hc b0 b1 b2 b3 b4 b5 => ⟨?_, ?_, ?_, ?_⟩, fun sch g s hc hl => ?_, fun sch g s hc => ?_⟩
  · rw [← mapPoint_bpsk]; exact mapCommand_ok hc rfl
  · rw [← mapPoint_qpsk]; exact mapCommand_ok hc rfl
  · rw [← mapPoint_qam16]; exact mapCommand_ok hc rfl
  · rw [← mapPoint_qam64]; exact mapCommand_ok hc rfl
  · exact (exec_mapOf sch g s).trans (mapCommand_groupLen hc hl)
  · exact (exec_mapOf sch g s).trans (mapCommand_config hc)

/-! ## How every command ends (R187) -/

theorem endedWith_takeFault (s : State) (c : Cause) : EndedWith s (takeFault c s) (.fault c) := ⟨0, rfl⟩

theorem endedWith_respond (s : State) (st : Status) (d : BitVec 8) : EndedWith s (respond st d s) st := ⟨d, rfl⟩

theorem mapStatus_of_configError {sch : Scheme} {g : Bits} {s : State} (hc : s.cfgState = .configError) :
    mapStatus sch g s = .fault .config := by
  rw [mapStatus, hc]

theorem mapStatus_of_ne_configError {sch : Scheme} {g : Bits} {s : State} (hc : s.cfgState ≠ .configError) :
    mapStatus sch g s = if g.length = codeWordLength sch then .ok else .fault .groupLen := by
  cases hs : s.cfgState with
  | unconfigured => rw [mapStatus, hs]
  | ready => rw [mapStatus, hs]
  | configError => exact absurd hs hc

theorem mapCommand_endedWith {sch : Scheme} {g : Bits} {s t : State} (h : mapCommand sch g s = .next t) :
    EndedWith s t (mapStatus sch g s) := by
  rcases mapCommand_cases sch g s with ⟨hc, he⟩ | ⟨hc, hl, he⟩ | ⟨hc, hl, he⟩ <;> rw [he] at h <;> cases h
  · rw [mapStatus_of_configError hc]; exact endedWith_takeFault s _
  · rw [mapStatus_of_ne_configError hc, if_neg hl]; exact endedWith_takeFault s _
  · rw [mapStatus_of_ne_configError hc, if_pos hl]; exact endedWith_respond s _ _

theorem statusOf_xlt_of_configError {pos : BitVec 6} {s : State} (hc : s.cfgState = .configError) :
    statusOf (.xlt pos) s = .fault .config := by
  rw [statusOf, hc]

theorem statusOf_xlt_of_ne_configError {pos : BitVec 6} {s : State} (hc : s.cfgState ≠ .configError) :
    statusOf (.xlt pos) s = if pos.toNat ≤ 47 then .ok else .fault .domain := by
  cases hs : s.cfgState with
  | unconfigured => rw [statusOf, hs]
  | ready => rw [statusOf, hs]
  | configError => exact absurd hs hc

theorem execXlt_endedWith {pos : BitVec 6} {s t : State} (h : execXlt pos s = .next t) :
    EndedWith s t (statusOf (.xlt pos) s) := by
  rcases execXlt_cases pos s with ⟨hc, he⟩ | ⟨hc, hp, he⟩ | ⟨hc, hp, k, -, he⟩ <;> rw [he] at h <;> cases h
  · rw [statusOf_xlt_of_configError hc]; exact endedWith_takeFault s _
  · rw [statusOf_xlt_of_ne_configError hc, if_neg (Nat.not_le.2 hp)]; exact endedWith_takeFault s _
  · rw [statusOf_xlt_of_ne_configError hc, if_pos hp]; exact endedWith_respond s _ _

theorem execInit_endedWith {s t : State} (h : execInit s = .next t) : EndedWith s t (statusOf .init s) := by
  rcases execInit_cases s with ⟨hc, he⟩ | ⟨hc, he⟩ | ⟨hc, hstr, he⟩ | ⟨hc, sch, hstr, he⟩ <;> rw [he] at h <;> cases h
  · rw [statusOf, hc]; exact endedWith_takeFault s _
  · rw [statusOf, hc]; exact endedWith_takeFault s _
  · rw [statusOf, hc, hstr]; exact ⟨0, rfl⟩
  · rw [statusOf, hc, hstr]; exact ⟨_, rfl⟩

theorem execMod_endedWith {s t : State} (h : execMod s = .next t) : EndedWith s t (statusOf .mod s) := by
  rcases execMod_cases s with ⟨hc, he⟩ | ⟨hc, he⟩ | ⟨hc, hshort, he⟩ | ⟨hc, ⟨h48, -⟩, he⟩ | ⟨-, -, -, he⟩ <;>
    rw [he] at h <;> cases h
  · rw [statusOf, hc]; exact endedWith_takeFault s _
  · rw [statusOf, hc]; exact endedWith_takeFault s _
  · rw [statusOf, hc, if_neg (Nat.not_le.2 hshort)]; exact endedWith_takeFault s _
  · rw [statusOf, hc, if_pos h48]; exact ⟨0, rfl⟩

/-- Every command that ends has the status that the table gives it. -/
theorem exec_endedWith {i : Instr} {s t : State} (h : exec i s = .next t) : EndedWith s t (statusOf i s) := by
  cases i with
  | init => exact execInit_endedWith h
  | mod => exact execMod_endedWith h
  | mapBpsk g => exact mapCommand_endedWith h
  | mapQpsk g => exact mapCommand_endedWith h
  | mapQam16 g => exact mapCommand_endedWith h
  | mapQam64 g => exact mapCommand_endedWith h
  | xlt pos => exact execXlt_endedWith h

/-! ## The operand faults (R182, R183, R184) -/

/-- What a fault's cause says of the command that ends with it: E_GROUPLEN, E_DOMAIN and E_SHORT each name a command and
what is wrong with its operand, E_CONFIG and E_REFUSED name none. -/
def Cause.OperandCondition (i : Instr) (s : State) : Cause → Prop
  | .config => True
  | .groupLen => ∃ sch g, i = .mapOf sch g ∧ g.length ≠ codeWordLength sch
  | .domain => ∃ pos, i = .xlt pos ∧ 48 ≤ pos.toNat
  | .short => i = .mod ∧ s.bitlen < 48
  | .refused => True

theorem operandCondition_of_mapStatus {sch : Scheme} {g : Bits} {s : State} {c : Cause}
    (h : mapStatus sch g s = .fault c) : c.OperandCondition (.mapOf sch g) s := by
  by_cases hc : s.cfgState = .configError
  · rw [mapStatus_of_configError hc] at h; cases h
    trivial
  · rw [mapStatus_of_ne_configError hc] at h
    split at h <;> cases h
    exact ⟨sch, g, rfl, ‹_›⟩

theorem operandCondition_of_statusOf_xlt {pos : BitVec 6} {s : State} {c : Cause}
    (h : statusOf (.xlt pos) s = .fault c) : c.OperandCondition (.xlt pos) s := by
  by_cases hc : s.cfgState = .configError
  · rw [statusOf_xlt_of_configError hc] at h; cases h
    trivial
  · rw [statusOf_xlt_of_ne_configError hc] at h
    split at h <;> cases h
    exact ⟨pos, rfl, Nat.not_le.1 ‹_›⟩

theorem operandCondition_of_statusOf_mod {s : State} {c : Cause} (h : statusOf .mod s = .fault c) :
    c.OperandCondition .mod s := by
  cases hs : s.cfgState with
  | unconfigured => rw [statusOf, hs] at h; cases h; trivial
  | ready =>
    rw [statusOf, hs] at h
    dsimp only at h
    split at h <;> cases h
    exact ⟨rfl, Nat.not_le.1 ‹_›⟩
  | configError => rw [statusOf, hs] at h; cases h; trivial

theorem operandCondition_of_statusOf_init {s : State} {c : Cause} (h : statusOf .init s = .fault c) :
    c.OperandCondition .init s := by
  cases hs : s.cfgState with
  | unconfigured =>
    rw [statusOf, hs] at h
    dsimp only at h
    split at h <;> cases h
    trivial
  | ready => rw [statusOf, hs] at h; cases h; trivial
  | configError => rw [statusOf, hs] at h; cases h; trivial

/-- The table gives an operand fault only to the command whose operand it is about. -/
theorem operandCondition_of_statusOf {i : Instr} {s : State} {c : Cause} (h : statusOf i s = .fault c) :
    c.OperandCondition i s := by
  cases i with
  | init => exact operandCondition_of_statusOf_init h
  | mod => exact operandCondition_of_statusOf_mod h
  | mapBpsk g => exact operandCondition_of_mapStatus (sch := .bpsk) h
  | mapQpsk g => exact operandCondition_of_mapStatus (sch := .qpsk) h
  | mapQam16 g => exact operandCondition_of_mapStatus (sch := .qam16) h
  | mapQam64 g => exact operandCondition_of_mapStatus (sch := .qam64) h
  | xlt pos => exact operandCondition_of_statusOf_xlt h

/-- Settles O33: the command's status is that of the table (`exec_endedWith`), where each operand fault has its
condition (`operandCondition_of_statusOf`). -/
theorem operandFaultsOfTheirCommandsOnly : Obligations.OperandFaultsOfTheirCommandsOnly := by
  intro i s t c d h hout
  have hcond : c.OperandCondition i s := operandCondition_of_statusOf ((exec_endedWith h).status_eq hout)
  exact ⟨by rintro rfl; exact hcond, by rintro rfl; exact hcond, by rintro rfl; exact hcond⟩

/-! ## The frame of the commands other than MOD (R106, R122, R161) -/

/-- Only MOD writes FRAMEMEM and the registers that say what it holds. -/
theorem exec_keeps_framemem {i : Instr} {s t : State} (hi : i ≠ .mod) (h : exec i s = .next t) :
    t.framemem = s.framemem ∧ t.outValid = s.outValid ∧ t.nframes = s.nframes ∧ t.tag = s.tag := by
  rcases exec_cases h with ⟨c, rfl⟩ | ⟨-, -, -, rfl⟩ | ⟨-, -, sch, -, rfl⟩ | ⟨hmod, -⟩ | ⟨-, -, -, d, rfl⟩
  · exact ⟨rfl, rfl, rfl, rfl⟩
  · exact ⟨rfl, rfl, rfl, rfl⟩
  · exact ⟨rfl, rfl, rfl, rfl⟩
  · exact absurd hmod hi
  · exact ⟨rfl, rfl, rfl, rfl⟩

/-- No command draws a free value. -/
theorem exec_keeps_draws {i : Instr} {s t : State} (h : exec i s = .next t) : t.draws = s.draws := by
  rcases exec_cases h with ⟨c, rfl⟩ | ⟨-, -, -, rfl⟩ | ⟨-, -, sch, -, rfl⟩ | ⟨-, -, -, rfl⟩ | ⟨-, -, -, d, rfl⟩ <;> rfl

/-- Settles O45: the output model is kept by `exec_keeps_framemem`, the input by `exec_sameInput`, the host's port by
`exec_responded`, and CFG_STATE and SCHEME by `exec_keeps_cfgState`. -/
theorem commandsOtherThanModStoreNothing : Obligations.CommandsOtherThanModStoreNothing := by
  intro i s t hmod h
  obtain ⟨hfm, hvalid, hnf, htag⟩ := exec_keeps_framemem hmod h
  obtain ⟨hparams, hstr, hlen, hbm⟩ := exec_sameInput h
  obtain ⟨hinbox, -⟩ := exec_responded h
  refine ⟨fun a => by rw [hfm], fun a => by rw [State.bit, State.bit, hbm], hvalid, hnf, htag, hstr, hlen, hparams,
    hinbox, exec_keeps_draws h, fun hinit => ?_⟩
  obtain ⟨hstate, hsch⟩ := exec_keeps_cfgState h fun hi => hinit hi.1
  exact ⟨hsch, hstate⟩

end Sys2Proof.Machine

/-! # The translator: its table, its image, its inverse, and the command XLT

The proofs of the statements about spec/41_translator.md. `translatePos_eq_some_iff` reads the table once as a relation
between position and slot; what R121, R126 and R127 say of the translator is then arithmetic on its six ranges. -/

namespace Sys2Proof.Machine

/-! ## The table (R121) -/

/-- The translator's table as a relation, one disjunct for each range. -/
theorem translatePos_eq_some_iff {p k : Nat} : translatePos p = some k ↔
    (p ≤ 4 ∧ k = p) ∨ (5 ≤ p ∧ p ≤ 17 ∧ k = p + 1) ∨ (18 ≤ p ∧ p ≤ 23 ∧ k = p + 2) ∨
      (24 ≤ p ∧ p ≤ 29 ∧ k = p + 3) ∨ (30 ≤ p ∧ p ≤ 42 ∧ k = p + 4) ∨ (43 ≤ p ∧ p ≤ 47 ∧ k = p + 5) := by
  unfold translatePos
  split_ifs <;> simp only [Option.some.injEq, false_iff] <;> omega

/-- Settles O16: each range is a disjunct of `translatePos_eq_some_iff`. -/
theorem translateIsTheSixRangeTable : Obligations.TranslateIsTheSixRangeTable := by
  intro p
  refine ⟨?_, ?_, ?_, ?_, ?_, ?_, translatePos_none_of_gt⟩ <;> intros <;> exact translatePos_eq_some_iff.2 (by omega)

/-! ## The inverse (R127) -/

theorem positionOf_eq_some_iff {k p : Nat} : positionOf k = some p ↔ translatePos p = some k :=
  ⟨fun h => (translatePos_positionOf h).2, positionOf_translatePos⟩

/-- Settles O18: the closed forms are the table read backwards. -/
theorem positionOfASlot : Obligations.PositionOfASlot := by
  refine ⟨fun _ _ => positionOf_eq_some_iff, fun k => ?_, fun _ => positionOf_empty⟩
  refine ⟨?_, ?_, ?_, ?_, ?_, ?_⟩ <;> intros <;>
    exact positionOf_eq_some_iff.2 (translatePos_eq_some_iff.2 (by omega))

/-! ## The image (R125, R126) -/

theorem exists_translatePos_iff {p : Nat} : (∃ k, translatePos p = some k) ↔ p ≤ 47 := by
  rw [← Option.isSome_iff_exists, translatePos_isSome, decide_eq_true_iff]

theorem translatePos_strictMono {p q k l : Nat} (hp : translatePos p = some k) (hq : translatePos q = some l)
    (hpq : p < q) : k < l := by
  rw [translatePos_eq_some_iff] at hp hq
  omega

/-- The slots that a position is sent to are those outside `EMPTY_SET`. -/
theorem exists_translatePos_eq_iff {k : Nat} :
    (∃ p, translatePos p = some k) ↔ k < frameSlots ∧ k ∉ emptySet := by
  constructor
  · rintro ⟨p, hp⟩
    exact (translatePos_lt hp).2
  · rintro ⟨hk, he⟩
    have hs : (positionOf k).isSome := by rw [positionOf_isSome k hk, decide_eq_true he]
    obtain ⟨p, hp⟩ := Option.isSome_iff_exists.1 hs
    exact ⟨p, (translatePos_positionOf hp).2⟩

/-- The set `OCC` of R126, range by range. -/
theorem exists_translatePos_eq_iff_ranges {k : Nat} : (∃ p, translatePos p = some k) ↔
    k ≤ 4 ∨ (6 ≤ k ∧ k ≤ 18) ∨ (20 ≤ k ∧ k ≤ 25) ∨ (27 ≤ k ∧ k ≤ 32) ∨ (34 ≤ k ∧ k ≤ 46) ∨ (48 ≤ k ∧ k ≤ 52) := by
  rw [exists_translatePos_eq_iff]
  simp only [frameSlots, emptySet, List.mem_cons, List.not_mem_nil, or_false]
  omega

theorem forall_translatePos_ne_iff {k : Nat} (hk : k ≤ 52) : (∀ p, translatePos p ≠ some k) ↔ k ∈ emptySet := by
  have hlt : k < frameSlots := Nat.lt_succ_of_le hk
  rw [← not_exists, exists_translatePos_eq_iff, and_iff_right hlt, not_not]

/-- The signed form of the image: `OCC` moved down by 26 (R125). -/
theorem exists_signedIndex_eq_iff {z : Int} : (∃ p k, translatePos p = some k ∧ signedIndex k = z) ↔
    (-26 ≤ z ∧ z ≤ -22) ∨ (-20 ≤ z ∧ z ≤ -8) ∨ (-6 ≤ z ∧ z ≤ -1) ∨ (1 ≤ z ∧ z ≤ 6) ∨ (8 ≤ z ∧ z ≤ 20) ∨
      (22 ≤ z ∧ z ≤ 26) := by
  unfold signedIndex
  constructor
  · rintro ⟨p, k, hp, rfl⟩
    have hk := exists_translatePos_eq_iff_ranges.1 ⟨p, hp⟩
    omega
  · intro hz
    obtain ⟨p, hp⟩ := (exists_translatePos_eq_iff_ranges (k := (z + 26).toNat)).2 (by omega)
    exact ⟨p, _, hp, by omega⟩

theorem signedIndex_translatePos_ne_zero {p k : Nat} (h : translatePos p = some k) : signedIndex k ≠ 0 := by
  have hz := exists_signedIndex_eq_iff.1 ⟨p, k, h, rfl⟩
  omega

/-- Settles O17, one lemma for each clause. -/
theorem translateIncreasesOntoTheDataSubcarriers : Obligations.TranslateIncreasesOntoTheDataSubcarriers :=
  ⟨fun _ => exists_translatePos_iff, fun _ _ _ _ => translatePos_strictMono,
    fun _ => exists_translatePos_eq_iff_ranges, fun _ => forall_translatePos_ne_iff,
    fun _ => exists_signedIndex_eq_iff, fun _ _ => signedIndex_translatePos_ne_zero⟩

/-! ## XLT (R122, R123) -/

theorem execXlt_ok {pos : BitVec 6} {s : State} (hc : s.cfgState ≠ .configError) (hp : pos.toNat ≤ 47) :
    ∃ k, translatePos pos.toNat = some k ∧ execXlt pos s = .next (respond .ok (BitVec.ofNat 8 k) s) := by
  rcases execXlt_cases pos s with ⟨hc', -⟩ | ⟨-, hp', -⟩ | ⟨-, -, hk⟩
  · exact absurd hc' hc
  · exact absurd hp (Nat.not_le.2 hp')
  · exact hk

theorem execXlt_domain {pos : BitVec 6} {s : State} (hc : s.cfgState ≠ .configError) (hp : 47 < pos.toNat) :
    execXlt pos s = .next (takeFault .domain s) := by
  rcases execXlt_cases pos s with ⟨hc', -⟩ | ⟨-, -, he⟩ | ⟨-, hp', -⟩
  · exact absurd hc' hc
  · exact he
  · exact absurd hp' (Nat.not_le.2 hp)

theorem execXlt_config {pos : BitVec 6} {s : State} (hc : s.cfgState = .configError) :
    execXlt pos s = .next (takeFault .config s) := by
  rcases execXlt_cases pos s with ⟨-, he⟩ | ⟨hc', -⟩ | ⟨hc', -⟩
  · exact he
  · exact absurd hc hc'
  · exact absurd hc hc'

/-- Settles O19, one lemma for each way XLT ends. -/
theorem xltResponds : Obligations.XltResponds := by
  refine fun pos s => ⟨fun hc hp => ?_, execXlt_domain, execXlt_config⟩
  obtain ⟨k, hk, he⟩ := execXlt_ok hc hp
  exact ⟨k, hk, Nat.le_of_lt_succ (translatePos_lt hk).2.1, he⟩

end Sys2Proof.Machine

/-! # The assembler: frames, their number, and the frames that MOD writes

The proofs of the statements about spec/42_assembler.md. `getElem?_mkframe_translatePos` and `getElem?_mkframe_empty` say
what a frame holds slot by slot; what MOD leaves in FRAMEMEM is then read off the points of each frame. -/

namespace Sys2Proof.Machine

/-! ## One frame (R141) -/

/-- The slot word of an occupied slot as a number (R57). -/
theorem occupiedSlot_eq_ofNat (r : PointRef) : occupiedSlot r = BitVec.ofNat 9 (0x100 + r.toNat) := by
  have hlt : 256 + r.toNat < 2 ^ 9 := by omega
  apply BitVec.eq_of_toNat_eq
  rw [toNat_occupiedSlot, BitVec.toNat_ofNat, Nat.mod_eq_of_lt hlt]

theorem getElem?_mkframe_translatePos {pts : List PointRef} {i k : Nat} {r : PointRef} (hr : pts[i]? = some r)
    (hk : translatePos i = some k) : (mkframe pts)[k]? = some (occupiedSlot r) := by
  rw [getElem?_mkframe pts (translatePos_lt hk).2.1, frameSlot_translatePos hk hr]

theorem getElem?_mkframe_empty (pts : List PointRef) {k : Nat} (hk : k ∈ emptySet) :
    (mkframe pts)[k]? = some emptySlot := by
  rw [getElem?_mkframe pts (lt_frameSlots_of_mem_emptySet k hk), frameSlot_empty pts hk]

/-- Settles O20: a slot is that of a position, or one of the five empty ones. -/
theorem mkframePlacesThePoints : Obligations.MkframePlacesThePoints := by
  refine fun pts _ => ⟨mkframe_length pts, fun i k r hr hk => ?_, fun k hk => getElem?_mkframe_empty pts hk⟩
  rw [getElem?_mkframe_translatePos hr hk, occupiedSlot_eq_ofNat]

/-! ## The number of frames (R147, R149) -/

/-- Settles O21: the counts are those of `payloadFrames_length` and `outputFrames_length`. -/
theorem numberOfFrames : Obligations.NumberOfFrames := by
  refine ⟨fun L n _ => ?_, fun s pl k hpl => ?_, ⟨rfl, rfl, rfl, rfl⟩,
    fun s bits _ => ⟨outputFrames_length s bits, fun F hF => length_of_mem_outputFrames hF⟩⟩
  · rw [Nat.div_div_eq_div_mul, Nat.mul_comm]
  · have hpos : 0 < 48 * codeWordLength s := Nat.mul_pos (by decide) (codeWordLength_pos s)
    rw [payloadFrames_length, hpl, Nat.mul_div_cancel_left k hpos]

/-! ## The header frame of MOD (R142, R143) -/

theorem occupiedSlot_mapPoint_bpsk (b : Bool) :
    occupiedSlot (mapPoint .bpsk [b]) = if b then 0x101#9 else 0x100#9 := by
  cases b <;> rfl

/-- The point of the header at position `i` is header bit `i`, mapped with BPSK (R142). -/
theorem point_of_header (s : State) {i : Nat} (hi : i < 48) :
    ((s.memRead 0 48).map fun b => mapPoint .bpsk [b])[i]? = some (mapPoint .bpsk [s.bit i]) := by
  rw [List.getElem?_map, getElem?_memRead, if_pos hi, Option.map_some, Nat.zero_add]

/-- Settles O22: frame 0 is the frame of the points of the header. -/
theorem modHeaderFrame : Obligations.ModHeaderFrame := by
  intro s t h hr h48
  obtain rfl := eq_modulate_of_exec_mod h hr h48
  refine ⟨fun i k hk => ?_, fun k hk => ?_⟩
  · obtain ⟨hi, hlt, -⟩ := translatePos_lt hk
    have hpoint := point_of_header s (Nat.lt_succ_of_le hi)
    calc (modulate s).slot 0 k = _ := slot_modulate_header s h48 hlt
      _ = some (occupiedSlot (mapPoint .bpsk [s.bit i])) := congrArg some (frameSlot_translatePos hk hpoint)
      _ = _ := congrArg some (occupiedSlot_mapPoint_bpsk _)
  · exact (slot_modulate_header s h48 (lt_frameSlots_of_mem_emptySet k hk)).trans
      (congrArg some (frameSlot_empty _ hk))

/-! ## The payload frames of MOD (R148, R151) -/

/-- The slot word of a mapped group of the scheme's length, as a number (R57, R100). -/
theorem occupiedSlot_mapPoint {sch : Scheme} {g : Bits} (hg : g.length = codeWordLength sch) :
    occupiedSlot (mapPoint sch g) = BitVec.ofNat 9 (0x100 + 64 * sch.code.toNat + groupIndex g) := by
  rw [occupiedSlot_eq_ofNat, toNat_mapPoint hg, Nat.add_assoc]

/-- The bits of group `48*f + i` lie below the first dropped bit (R146, R151). -/
theorem payload_group_le {s : State} {f i : Nat} (hf : f < payloadFrameCount s.scheme s.bitlen) (hi : i < 48) :
    48 + (48 * f + i) * codeWordLength s.scheme + codeWordLength s.scheme ≤
      48 + 48 * codeWordLength s.scheme * payloadFrameCount s.scheme s.bitlen := by
  have hin := group_inside hf hi
  unfold payloadFrameCount
  omega

/-- The bits that reach a frame are all below BITLEN (R146). -/
theorem used_bits_le_bitlen {s : State} (h48 : 48 ≤ s.bitlen) :
    48 + 48 * codeWordLength s.scheme * payloadFrameCount s.scheme s.bitlen ≤ s.bitlen := by
  have hle := Nat.mul_div_le (s.bitlen - 48) (48 * codeWordLength s.scheme)
  unfold payloadFrameCount
  omega

/-- Settles O23: frame `1 + f` is the frame of the 48 points from `48*f` on. -/
theorem modPayloadFrames : Obligations.ModPayloadFrames := by
  intro s t h hr h48 f hf
  obtain rfl := eq_modulate_of_exec_mod h hr h48
  refine ⟨fun i k hk => ?_, fun k hk => ?_⟩
  · obtain ⟨hi, hlt, -⟩ := translatePos_lt hk
    have hi48 : i < 48 := Nat.lt_succ_of_le hi
    have hpoint := point_of_payload s hf hi48
    refine ⟨(payload_group_le hf hi48).trans (used_bits_le_bitlen h48), ?_⟩
    calc (modulate s).slot (1 + f) k = _ := slot_modulate_payload s h48 hf hlt
      _ = some (occupiedSlot (mapPoint s.scheme _)) := congrArg some (frameSlot_translatePos hk hpoint)
      _ = _ := congrArg some (occupiedSlot_mapPoint (memRead_length _ _ _))
  · exact (slot_modulate_payload s h48 hf (lt_frameSlots_of_mem_emptySet k hk)).trans
      (congrArg some (frameSlot_empty _ hk))

/-! ## What the output depends on (R146, R167) -/

/-- `s` and `s'` agree on what reaches a frame: the scheme, the number of payload frames, and the bits that are in the
header or in a group of one of these frames. -/
structure State.SameUsedInput (s s' : State) : Prop where
  scheme : s'.scheme = s.scheme
  count : payloadFrameCount s.scheme s'.bitlen = payloadFrameCount s.scheme s.bitlen
  bits : ∀ a < 48 + 48 * codeWordLength s.scheme * payloadFrameCount s.scheme s.bitlen, s.bit a = s'.bit a

section
variable {s s' : State} (h : s.SameUsedInput s')
include h

theorem State.SameUsedInput.nframes_modulate : (modulate s).nframes = (modulate s').nframes := by
  rw [modulate_nframes, modulate_nframes, h.scheme, h.count]

theorem State.SameUsedInput.header : s.memRead 0 48 = s'.memRead 0 48 :=
  memRead_congr fun j hj => h.bits (0 + j) (by omega)

/-- The points of payload frame `f` are the same, one position after the other. -/
theorem State.SameUsedInput.payload_points {f : Nat} (hf : f < payloadFrameCount s.scheme s.bitlen) :
    sub (points s.scheme (s.memRead 48 (s.bitlen - 48))) (f * 48) 48 =
      sub (points s'.scheme (s'.memRead 48 (s'.bitlen - 48))) (f * 48) 48 := by
  have hf' : f < payloadFrameCount s'.scheme s'.bitlen := by rwa [h.scheme, h.count]
  refine List.ext_getElem? fun i => ?_
  by_cases hi : i < 48
  · have hle := payload_group_le hf hi
    rw [point_of_payload s hf hi, point_of_payload s' hf' hi, h.scheme,
      memRead_congr fun j hj => h.bits _ (by omega)]
  · rw [getElem?_sub, getElem?_sub, if_neg hi, if_neg hi]

/-- Every slot of every frame below NFRAMES is the same: frame 0 from the header, frame `1 + f` from its points. -/
theorem State.SameUsedInput.slot_modulate (h48 : 48 ≤ s.bitlen) (h48' : 48 ≤ s'.bitlen) {f k : Nat}
    (hf : f < (modulate s).nframes) (hk : k < frameSlots) : (modulate s).slot f k = (modulate s').slot f k := by
  cases f with
  | zero => rw [slot_modulate_header s h48 hk, slot_modulate_header s' h48' hk, h.header]
  | succ f =>
    have hfs : f < payloadFrameCount s.scheme s.bitlen := by rw [modulate_nframes] at hf; omega
    have hfs' : f < payloadFrameCount s'.scheme s'.bitlen := by rwa [h.scheme, h.count]
    rw [Nat.add_comm, slot_modulate_payload s h48 hfs hk, slot_modulate_payload s' h48' hfs' hk, h.payload_points hfs]

end

/-- Settles O29: both MODs write the output model of what reaches a frame, and what reaches a frame is the same. -/
theorem modOutputDependsOnItsInputOnly : Obligations.ModOutputDependsOnItsInputOnly := by
  intro s s' t t' ht ht' hr hr' h48 h48' hscheme hcount hbits
  obtain rfl := eq_modulate_of_exec_mod ht hr h48
  obtain rfl := eq_modulate_of_exec_mod ht' hr' h48'
  have h : s.SameUsedInput s' := ⟨hscheme.symm, hcount.symm, hbits⟩
  exact ⟨h.nframes_modulate, hscheme, rfl, fun f k hf hk => h.slot_modulate h48 h48' hf hk, by simp⟩

end Sys2Proof.Machine

/-! # The orchestrator: the configuration strings and the commands INIT and MOD

The proofs of the statements about spec/43_orchestrator.md: `recognise` as a table of four words, and one equation for
each way INIT and MOD end. -/

namespace Sys2Proof.Machine

/-! ## The configuration strings (R162) -/

/-- The four words of CFG_STR that name a scheme, each with its scheme. -/
def configurationWords : List (ConfigWord × Scheme) :=
  [(0x000000004B535042#64, .bpsk), (0x000000004B535051#64, .qpsk), (0x000036312D4D4151#64, .qam16),
    (0x000034362D4D4151#64, .qam64)]

/-- Every word of the table is recognised, and a recognised word is the one that the comparison found. -/
theorem recognise_eq_some_iff {w : ConfigWord} {sch : Scheme} :
    recognise w = some sch ↔ (w, sch) ∈ configurationWords := by
  constructor
  · intro h
    unfold recognise at h
    split_ifs at h <;> cases h <;> simp [configurationWords, *]
  · exact (by decide : ∀ c ∈ configurationWords, recognise c.1 = some c.2) (w, sch)

theorem recognise_eq_none_iff {w : ConfigWord} : recognise w = none ↔ w ∉ configurationWords.map Prod.fst := by
  simp [Option.eq_none_iff_forall_ne_some, recognise_eq_some_iff]

/-- No name has eight characters: the last byte of a recognised word is zero. -/
theorem lastByte_of_recognise {w : ConfigWord} {sch : Scheme} (h : recognise w = some sch) :
    w.extractLsb' 56 8 = 0 :=
  (by decide : ∀ c ∈ configurationWords, c.1.extractLsb' 56 8 = 0) (w, sch) (recognise_eq_some_iff.1 h)

/-- A string of eight or more characters has its eighth in the last byte (O27), where a name has a zero. -/
theorem recognise_configWord_of_eight_le {chars : List (BitVec 8)} (hl : 8 ≤ chars.length)
    (hne : ∀ c ∈ chars, c ≠ 0) : recognise (configWord chars) = none := by
  refine Option.eq_none_iff_forall_ne_some.2 fun sch h => ?_
  have hlast : chars.getD 7 0 = 0 := (configWordLayout chars 7 (by decide)).symm.trans (lastByte_of_recognise h)
  rw [List.getD_eq_getElem _ _ hl] at hlast
  exact hne _ (List.getElem_mem hl) hlast

/-- Settles O26: the table is `recognise_eq_some_iff`, the long strings are `recognise_configWord_of_eight_le`, and the
strings that the rule names are evaluated. -/
theorem configurationStringsRecognised : Obligations.ConfigurationStringsRecognised :=
  ⟨rfl, rfl, rfl, rfl, fun _ _ => recognise_eq_some_iff, fun _ => recognise_configWord_of_eight_le,
    rfl, rfl, rfl, rfl, rfl, rfl, rfl⟩

/-! ## INIT (R161, R163) -/

theorem execInit_of_configError {s : State} (hc : s.cfgState = .configError) :
    execInit s = .next (takeFault .config s) := by
  simp only [execInit, hc, raise]

theorem execInit_of_ready {s : State} (hr : s.cfgState = .ready) : execInit s = .next (takeFault .refused s) := by
  simp only [execInit, hr, raise]

theorem execInit_of_recognised {s : State} (hu : s.cfgState = .unconfigured) {sch : Scheme}
    (h : recognise s.cfgStr = some sch) :
    execInit s = .next (respond .ok (sch.code.setWidth 8) { s with scheme := sch, cfgState := .ready }) := by
  simp only [execInit, hu, h]

theorem execInit_of_unrecognised {s : State} (hu : s.cfgState = .unconfigured) (h : recognise s.cfgStr = none) :
    execInit s = .next (takeFault .config { s with cfgState := .configError }) := by
  simp only [execInit, hu, h, raise]

/-- The scheme code as the data of a response: six zero bits above it. -/
theorem setWidth_code (sch : Scheme) : sch.code.setWidth 8 = 0b000000#6 ++ sch.code := by cases sch <;> rfl

/-- Settles O25, one lemma for each way INIT ends. -/
theorem initResolvesTheScheme : Obligations.InitResolvesTheScheme := by
  refine fun s => ⟨fun hu => ⟨fun sch hmem => ?_, fun hnot => ?_⟩, execInit_of_ready, execInit_of_configError⟩
  · rw [← setWidth_code]
    exact execInit_of_recognised hu (recognise_eq_some_iff.2 hmem)
  · exact execInit_of_unrecognised hu (recognise_eq_none_iff.2 hnot)

/-! ## MOD (R165, R166) -/

theorem execMod_of_configError {s : State} (hc : s.cfgState = .configError) :
    execMod s = .next (takeFault .config s) := by
  simp only [execMod, hc, raise]

theorem execMod_of_unconfigured {s : State} (hu : s.cfgState = .unconfigured) :
    execMod s = .next (takeFault .refused s) := by
  simp only [execMod, hu, raise]

theorem execMod_of_short {s : State} (hr : s.cfgState = .ready) (hlt : s.bitlen < 48) :
    execMod s = .next (takeFault .short s) := by
  simp only [execMod, hr, if_pos hlt, raise]

theorem execMod_of_above_maxBits {s : State} (hr : s.cfgState = .ready) (h48 : 48 ≤ s.bitlen) {m : Nat}
    (hm : s.params.maxBits = some m) (hlt : m < s.bitlen) : execMod s = .refused .bitlenAboveMaxbits := by
  have hillegal : ¬bitlenLegal s.params s.bitlen = true := fun h =>
    Nat.not_le.2 hlt ((bitlenLegal_iff _ _).1 h m hm)
  simp only [execMod, hr, if_neg (Nat.not_lt.2 h48), if_neg hillegal]

/-- Settles O28, one lemma for each way MOD ends; the success is `execMod_next`. -/
theorem modChecksInOrderAndCompletes : Obligations.ModChecksInOrderAndCompletes :=
  fun _ => ⟨execMod_of_configError, execMod_of_unconfigured, execMod_of_short,
    fun hr h48 hle => ⟨_, execMod_next hr h48 hle⟩,
    fun hr h48 ⟨_, hm, hlt⟩ => execMod_of_above_maxBits hr h48 hm hlt⟩

end Sys2Proof.Machine

/-! # The faults: what a command reads, how it ends, and what a fault leaves behind

The proofs of the statements about spec/60_exceptions.md. FAULT and what has been delivered are written by commands and
read by none: from there, one fault entry for the whole command set, and what a faulting command leaves to the next. -/

namespace Sys2Proof.Machine

/-! ## The codes, and the idle block (R180, R198) -/

/-- Settles O9: the codes are evaluated, the bit of FAULT cause by cause. -/
theorem statusAndStateCodes : Obligations.StatusAndStateCodes :=
  ⟨rfl, rfl, rfl, rfl, rfl, rfl, by rintro (_ | _ | _ | _ | _) <;> decide, ⟨rfl, rfl, rfl⟩, rfl⟩

/-- Settles O11, by the first branch of `step`. -/
theorem idleBlockKeepsItsState : Obligations.IdleBlockKeepsItsState := by
  intro s h
  rw [step, h]

/-! ## The status table (R187) -/

/-- The table reads neither FAULT nor what has been delivered. -/
@[simp] theorem statusOf_takeFault (i : Instr) (s : State) (c : Cause) :
    statusOf i (takeFault c s) = statusOf i s := rfl

/-- In CONFIG_ERROR the table has one entry (R191). -/
theorem statusOf_of_configError (i : Instr) {s : State} (hc : s.cfgState = .configError) :
    statusOf i s = .fault .config := by
  cases i with
  | init | mod => rw [statusOf, hc]
  | mapBpsk g | mapQpsk g | mapQam16 g | mapQam64 g => exact mapStatus_of_configError hc
  | xlt pos => exact statusOf_xlt_of_configError hc

/-- Settles O30: a decodable word ends as the table says (`exec_endedWith`), an undecodable one with E_REFUSED. -/
theorem statusOfEveryCommand : Obligations.StatusOfEveryCommand := by
  intro s t w rest hm h
  rw [step_of_inbox hm] at h
  rcases runWord_cases (show runWord w (s.accept rest) = .next t from h) with ⟨i, hd, he⟩ | ⟨why, hd, rfl⟩ <;> rw [hd]
  · exact exec_endedWith (s := s.accept rest) he
  · exact endedWith_takeFault (s.accept rest) .refused

/-! ## No command reads FAULT or what has been delivered (R186, R190) -/

/-- The state with another content of FAULT and another record of what has been delivered. -/
def State.withReports (s : State) (f : BitVec 5) (os : List Output) : State := { s with fault := f, outbox := os }

/-- A command ends with status `st` and data `d`: the status' write of FAULT, and the response. `takeFault c` is
`conclude (.fault c) 0`, and `respond .ok d` is `conclude .ok d`. -/
def conclude (st : Status) (d : BitVec 8) (s : State) : State :=
  respond st d { s with fault := faultAfter st s.fault }

@[simp] theorem conclude_outbox (st : Status) (d : BitVec 8) (s : State) :
    (conclude st d s).outbox = s.outbox ++ [.response st d] := rfl

/-- From `s` the command ends, with a status, data and a next state that are the same whatever FAULT holds and
whatever has been delivered. -/
def Concludes (run : State → Host.Outcome State Fault Refusal) (s : State) : Prop :=
  ∃ (st : Status) (d : BitVec 8) (s' : State),
    ∀ f os, run (s.withReports f os) = .next (conclude st d (s'.withReports f os))

theorem mapCommand_concludes (sch : Scheme) (g : Bits) (s : State) : Concludes (mapCommand sch g) s := by
  rcases mapCommand_cases sch g s with ⟨hc, -⟩ | ⟨hc, hl, -⟩ | ⟨hc, hl, -⟩
  · exact ⟨.fault .config, 0, s, fun f os => mapCommand_config (s := s.withReports f os) hc⟩
  · exact ⟨.fault .groupLen, 0, s, fun f os => mapCommand_groupLen (s := s.withReports f os) hc hl⟩
  · exact ⟨.ok, mapPoint sch g, s, fun f os => mapCommand_ok (s := s.withReports f os) hc hl⟩

theorem execXlt_concludes (pos : BitVec 6) (s : State) : Concludes (execXlt pos) s := by
  rcases execXlt_cases pos s with ⟨hc, -⟩ | ⟨hc, hp, -⟩ | ⟨hc, hp, k, hk, -⟩
  · exact ⟨.fault .config, 0, s, fun f os => execXlt_config (s := s.withReports f os) hc⟩
  · exact ⟨.fault .domain, 0, s, fun f os => execXlt_domain (s := s.withReports f os) hc hp⟩
  · refine ⟨.ok, BitVec.ofNat 8 k, s, fun f os => ?_⟩
    obtain ⟨k', hk', he⟩ := execXlt_ok (s := s.withReports f os) hc hp
    obtain rfl : k' = k := Option.some.inj (hk'.symm.trans hk)
    exact he

theorem execInit_concludes (s : State) : Concludes execInit s := by
  rcases execInit_cases s with ⟨hc, -⟩ | ⟨hr, -⟩ | ⟨hu, hstr, -⟩ | ⟨hu, sch, hstr, -⟩
  · exact ⟨.fault .config, 0, s, fun f os => execInit_of_configError (s := s.withReports f os) hc⟩
  · exact ⟨.fault .refused, 0, s, fun f os => execInit_of_ready (s := s.withReports f os) hr⟩
  · exact ⟨.fault .config, 0, { s with cfgState := .configError },
      fun f os => execInit_of_unrecognised (s := s.withReports f os) hu hstr⟩
  · exact ⟨.ok, sch.code.setWidth 8, { s with scheme := sch, cfgState := .ready },
      fun f os => execInit_of_recognised (s := s.withReports f os) hu hstr⟩

/-- A BITLEN that is not legal is above a MAXBITS that there is (R9, R165). -/
theorem exists_maxBits_lt {s : State} (h : bitlenLegal s.params s.bitlen = false) :
    ∃ m, s.params.maxBits = some m ∧ m < s.bitlen := by
  simpa using mt (bitlenLegal_iff _ _).2 (Bool.eq_false_iff.1 h)

/-- MOD alone may be refused, for a BITLEN above MAXBITS, where the table has OK. -/
theorem execMod_concludes (s : State) : Concludes execMod s ∨
    (statusOf .mod s = .ok ∧ ∀ f os, execMod (s.withReports f os) = .refused .bitlenAboveMaxbits) := by
  rcases execMod_cases s with ⟨hc, -⟩ | ⟨hu, -⟩ | ⟨hr, hshort, -⟩ | ⟨hr, ⟨h48, hlegal⟩, -⟩ | ⟨hr, h48, hillegal, -⟩
  · exact .inl ⟨.fault .config, 0, s, fun f os => execMod_of_configError (s := s.withReports f os) hc⟩
  · exact .inl ⟨.fault .refused, 0, s, fun f os => execMod_of_unconfigured (s := s.withReports f os) hu⟩
  · exact .inl ⟨.fault .short, 0, s, fun f os => execMod_of_short (s := s.withReports f os) hr hshort⟩
  · exact .inl ⟨.ok, 0, modulate s,
      fun f os => execMod_next (s := s.withReports f os) hr h48 ((bitlenLegal_iff _ _).1 hlegal)⟩
  · obtain ⟨m, hm, hlt⟩ := exists_maxBits_lt hillegal
    exact .inr ⟨by rw [statusOf, hr, if_pos h48],
      fun f os => execMod_of_above_maxBits (s := s.withReports f os) hr h48 hm hlt⟩

/-- The same of the whole command set. -/
theorem exec_concludes (i : Instr) (s : State) : Concludes (exec i) s ∨
    (statusOf i s = .ok ∧ ∀ f os, exec i (s.withReports f os) = .refused .bitlenAboveMaxbits) := by
  cases i with
  | init => exact .inl (execInit_concludes s)
  | mod => exact execMod_concludes s
  | mapBpsk g => exact .inl (mapCommand_concludes .bpsk g s)
  | mapQpsk g => exact .inl (mapCommand_concludes .qpsk g s)
  | mapQam16 g => exact .inl (mapCommand_concludes .qam16 g s)
  | mapQam64 g => exact .inl (mapCommand_concludes .qam64 g s)
  | xlt pos => exact .inl (execXlt_concludes pos s)

/-! ## Fault entry (R186, R92) -/

/-- A command for which the table has a fault is not refused. -/
theorem exec_next_of_statusOf_fault {i : Instr} {s : State} {c : Cause} (h : statusOf i s = .fault c) :
    ∃ t, exec i s = .next t := by
  rcases exec_concludes i s with ⟨st, d, s', he⟩ | ⟨hok, -⟩
  · exact ⟨_, he s.fault s.outbox⟩
  · cases h.symm.trans hok

/-- INIT in UNCONFIGURED leaves UNCONFIGURED, however it ends (R34). -/
theorem execInit_leaves_unconfigured {s t : State} (hu : s.cfgState = .unconfigured) (h : execInit s = .next t) :
    t.cfgState ≠ s.cfgState := by
  rcases execInit_unconfigured hu h with ⟨-, -, ht, -⟩ | ⟨-, ht, -⟩ <;> rw [ht, hu] <;> decide

/-- The state in which a command takes its fault: INIT in UNCONFIGURED goes to CONFIG_ERROR first (R161). -/
def State.atFault (i : Instr) (s : State) : State :=
  { s with cfgState := if i = .init ∧ s.cfgState = .unconfigured then .configError else s.cfgState }

theorem atFault_of_init {i : Instr} {s : State} (hi : i = .init ∧ s.cfgState = .unconfigured) :
    s.atFault i = { s with cfgState := .configError } := by
  rw [State.atFault, if_pos hi]

theorem atFault_of_not_init {i : Instr} {s : State} (hi : ¬(i = .init ∧ s.cfgState = .unconfigured)) :
    s.atFault i = s := by
  rw [State.atFault, if_neg hi]

/-- A command for which the table has a fault takes that fault. -/
theorem exec_of_statusOf_fault {i : Instr} {s : State} {c : Cause} (h : statusOf i s = .fault c) :
    exec i s = .next (takeFault c (s.atFault i)) := by
  obtain ⟨t, ht⟩ := exec_next_of_statusOf_fault h
  have hend : EndedWith s t (.fault c) := h ▸ exec_endedWith ht
  rcases exec_cases ht with ⟨c', rfl⟩ | ⟨hi, hu, -, rfl⟩ | ⟨-, -, sch, -, rfl⟩ | ⟨-, -, -, rfl⟩ | ⟨-, -, -, d, rfl⟩
  · obtain ⟨⟩ := hend.status_eq rfl
    have hi : ¬(i = .init ∧ s.cfgState = .unconfigured) := by
      rintro ⟨rfl, hu⟩
      exact execInit_leaves_unconfigured hu ht rfl
    rw [ht, atFault_of_not_init hi]
  · obtain ⟨⟩ := hend.status_eq rfl
    rw [ht, atFault_of_init ⟨hi, hu⟩]
  · cases hend.status_eq rfl
  · cases hend.status_eq rfl
  · cases hend.status_eq rfl

/-- Settles O31: the next state of `exec_of_statusOf_fault`, field by field. -/
theorem faultEntryChangesNothingElse : Obligations.FaultEntryChangesNothingElse :=
  fun _ _ _ h => exec_of_statusOf_fault h

/-! ## CONFIG_ERROR (R191) -/

theorem exec_of_configError (i : Instr) {s : State} (hc : s.cfgState = .configError) :
    exec i s = .next (takeFault .config s) := by
  have hi : ¬(i = .init ∧ s.cfgState = .unconfigured) := by
    rintro ⟨-, hu⟩
    cases hc.symm.trans hu
  rw [exec_of_statusOf_fault (statusOf_of_configError i hc), atFault_of_not_init hi]

/-- Settles O34: every command takes the fault E_CONFIG, an undecodable word E_REFUSED (O6), and no step but reset and
an INIT in UNCONFIGURED moves CFG_STATE (O35). -/
theorem configErrorIsAbsorbing : Obligations.ConfigErrorIsAbsorbing := by
  refine fun s hc => ⟨fun w rest i hm hd => ?_, fun w rest why hm hd => ?_, fun t h hr => ?_⟩
  · rw [step_of_inbox hm, runMove, runWord_of_instr hd]
    exact exec_of_configError i (s := s.accept rest) hc
  · obtain ⟨-, hstep⟩ := undecodableWordsAreRefused w
    exact hstep why s rest hd hm
  · obtain ⟨-, -, hkeep⟩ := transitionsOfCfgState s t h
    obtain ⟨hstate, -⟩ := hkeep hr fun ⟨_, hu⟩ => by cases hc.symm.trans hu
    exact hstate.trans hc

/-! ## What a faulting command leaves to the next (R190) -/

/-- Two sticky bits are set in any order. -/
theorem setFault_comm (c c' : Cause) (f : BitVec 5) : setFault c (setFault c' f) = setFault c' (setFault c f) := by
  simp only [setFault]
  ac_rfl

/-- A sticky bit set before another command's write of FAULT is as one set after it. -/
theorem faultAfter_setFault (st : Status) (c : Cause) (f : BitVec 5) :
    faultAfter st (setFault c f) = setFault c (faultAfter st f) := by
  cases st with
  | ok => rfl
  | fault c' => exact setFault_comm c' c f

/-- The one fault of INIT in UNCONFIGURED is that of an unrecognised string (R161). -/
theorem eq_config_of_init_unconfigured {s : State} {c : Cause} (hu : s.cfgState = .unconfigured)
    (h : statusOf .init s = .fault c) : c = .config := by
  rw [statusOf, hu] at h
  dsimp only at h
  split at h <;> cases h
  rfl

/-- After its fault a command has the same fault again: either the table reads what it read before, or INIT has gone to
CONFIG_ERROR, where the table has E_CONFIG again. -/
theorem statusOf_after_fault {i : Instr} {s : State} {c : Cause} (h : statusOf i s = .fault c) :
    statusOf i (takeFault c (s.atFault i)) = .fault c := by
  rw [statusOf_takeFault]
  by_cases hi : i = .init ∧ s.cfgState = .unconfigured
  · obtain ⟨rfl, hu⟩ := hi
    rw [eq_config_of_init_unconfigured hu h, atFault_of_init ⟨rfl, hu⟩]
    exact statusOf_of_configError .init rfl
  · rw [atFault_of_not_init hi, h]

/-- Settles O36: the state after the fault is `withReports` of the state before it, so the next command concludes alike
(`exec_concludes`), on a FAULT in which the bit was set before (`faultAfter_setFault`). -/
theorem faultingCommandLeavesOnlyItsBit : Obligations.FaultingCommandLeavesOnlyItsBit := by
  intro i s t c h hfault
  cases h.symm.trans (exec_of_statusOf_fault hfault)
  refine ⟨statusOf_after_fault hfault, fun hi j => ?_⟩
  rw [atFault_of_not_init hi]
  rcases exec_concludes j s with ⟨st, d, s', he⟩ | ⟨-, he⟩
  · have hwithout := he s.fault s.outbox
    have hafter := he (setFault c s.fault) (s.outbox ++ [.response (.fault c) 0])
    refine ⟨fun u hu => ?_, fun r hr => ?_⟩
    · cases hu.symm.trans hwithout
      exact ⟨_, hafter, by simp, faultAfter_setFault st c s.fault, rfl⟩
    · cases hr.symm.trans hwithout
  · refine ⟨fun u hu => ?_, fun r hr => ?_⟩
    · cases hu.symm.trans (he s.fault s.outbox)
    · cases hr.symm.trans (he s.fault s.outbox)
      exact he (setFault c s.fault) (s.outbox ++ [.response (.fault c) 0])

end Sys2Proof.Machine

/-! # Runs of commands, and reset

The proofs of the statements about spec/70_reset_and_hazards.md: a run of commands is one step and one response for each
(R215), and reset alone takes back what commands have set (R35, R201). -/

namespace Sys2Proof.Machine

/-! ## Runs of commands (R215) -/

/-- Settles O13, by induction on the words: the first takes one step and delivers one response (O12), and leaves MAXBITS
and BITLEN, so BITLEN is as legal for the words that follow (O39). -/
theorem runOfCommandsCompletesInAsManySteps : Obligations.RunOfCommandsCompletesInAsManySteps := by
  intro ws
  induction ws with
  | nil => exact fun s hin _ => ⟨s, [], rfl, hin, rfl, (List.append_nil _).symm⟩
  | cons w ws ih =>
    intro s hin hlegal
    obtain ⟨t, st, d, hstep, hrest, hout, -⟩ := everyCommandEndsWithOneResponse s w _ hin hlegal
    obtain ⟨hinput, -, hparams⟩ := everyPieceOfStateHasOneWriter s t _ _ hin hstep
    obtain ⟨-, hbitlen, -⟩ := hinput w rfl
    obtain ⟨u, rs, hrun, hdone, hlen, hrs⟩ := ih t hrest (by rwa [hparams, hbitlen])
    refine ⟨u, (st, d) :: rs, (run_succ core ws.length s t hstep).trans hrun, hdone, congrArg (· + 1) hlen, ?_⟩
    rw [hrs, hout, List.append_assoc, List.singleton_append, List.map_cons]

/-! ## What only reset takes back (R27, R34, R201) -/

/-- No command clears OUT_VALID: a MOD that ends with OK sets it, and every other command keeps it (R27). -/
theorem exec_keeps_outValid {i : Instr} {s t : State} (h : exec i s = .next t) (hv : s.outValid = true) :
    t.outValid = true := by
  rcases exec_cases h with ⟨c, rfl⟩ | ⟨-, -, -, rfl⟩ | ⟨-, -, sch, -, rfl⟩ | ⟨-, -, -, rfl⟩ | ⟨-, -, -, d, rfl⟩
  · exact hv
  · exact hv
  · exact hv
  · rfl
  · exact hv

theorem runWord_keeps_outValid {w : CommandWord} {s t : State} (h : runWord w s = .next t) (hv : s.outValid = true) :
    t.outValid = true := by
  rcases runWord_cases h with ⟨i, -, hi⟩ | ⟨-, -, rfl⟩
  · exact exec_keeps_outValid hi hv
  · exact hv

/-- No move but reset clears OUT_VALID. -/
theorem runMove_keeps_outValid {m : HostMove} {s t : State} (h : runMove m s = .next t) (hr : m ≠ .reset)
    (hv : s.outValid = true) : t.outValid = true := by
  by_cases hc : ∃ w, m = .command w
  · obtain ⟨w, rfl⟩ := hc
    exact runWord_keeps_outValid (show runWord w s = .next t from h) hv
  · obtain ⟨hsame, -⟩ := runMove_sameOutput h (fun w hw => hc ⟨w, hw⟩) hr
    exact hsame.outValid.trans hv

theorem step_keeps_outValid {s t : State} (h : step s = .next t) (hr : s.inbox.head? ≠ some .reset)
    (hv : s.outValid = true) : t.outValid = true := by
  rcases step_head?_cases h with ⟨-, rfl⟩ | ⟨m, hm, hrun⟩
  · exact hv
  · exact runMove_keeps_outValid hrun (fun hm' => hr (by rw [hm, hm'])) hv

/-- No step but reset leaves READY or CONFIG_ERROR (R34, from O35): INIT moves CFG_STATE in UNCONFIGURED only. -/
theorem step_keeps_cfgState {s t : State} (h : step s = .next t) (hr : s.inbox.head? ≠ some .reset)
    (hu : s.cfgState ≠ .unconfigured) : t.cfgState = s.cfgState := by
  obtain ⟨-, -, hkeep⟩ := transitionsOfCfgState s t h
  exact (hkeep hr fun ⟨_, hu'⟩ => hu hu').1

/-- Settles O37: the effects of reset are the fields of `resetBlock`; any other step keeps READY and CONFIG_ERROR
(`step_keeps_cfgState`), the fault bits (O32) and OUT_VALID (`step_keeps_outValid`). -/
theorem resetAndOnlyReset : Obligations.ResetAndOnlyReset := by
  refine ⟨fun s rest hm => ?_, fun s t h hback => ?_⟩
  · exact ⟨resetBlock (s.accept rest), step_of_inbox hm, ⟨rfl, rfl, rfl⟩, rfl, rfl, rfl, rfl, rfl, rfl⟩
  · by_contra hr
    rcases hback with ⟨hs, ht⟩ | ⟨hs, ht⟩ | ⟨b, hs, ht⟩ | ⟨hs, ht⟩
    · exact ht ((step_keeps_cfgState h hr (by rw [hs]; decide)).trans hs)
    · exact ht ((step_keeps_cfgState h hr (by rw [hs]; decide)).trans hs)
    · obtain ⟨-, hkeep, -⟩ := faultBitsAreSticky s t h
      cases (hkeep hr b hs).symm.trans ht
    · cases (step_keeps_outValid h hr hs).symm.trans ht

end Sys2Proof.Machine
